-- ==== Sys2Proof/Word.lean ====
section
/-! DEFINITION. The two machine words of the block (spec 00_scope.md R6, R7): the 8-bit general register and memory byte, and the 16-bit address. Bits are numbered from 0 at the least significant one and sums wrap, which is what BitVec gives. -/

namespace Sys2Proof

/-- A general register or a memory byte: 8 bits (R6 `XLEN8`). -/
abbrev Byte := BitVec 8

/-- PC, SP, HL or an address: 16 bits (R6 `ALEN`). -/
abbrev Word := BitVec 16

end Sys2Proof
end

