-- ==== Sys2Proof/Syntax.lean ====
section
/-! DEFINITION. The syntax of the instruction set `SM83-CORE-37`: one constructor for every row of spec/opcode_table.json (30_encoding.md R100), with its operands as R94 to R96 and R115 give them, and the names the operands and conditions are written with. -/

namespace Sys2Proof

/-- The seven 8-bit registers (R20). -/
inductive Reg8 where
  | a | b | c | d | e | h | l
deriving DecidableEq, Repr

/-- The four conditions of the conditional forms (R98, R106). -/
inductive Cond where
  | nz | z | nc | c
deriving DecidableEq, Repr

/-- The three instruction formats (R90 to R93). -/
inductive Format where
  | f1 | f2 | f3
deriving DecidableEq, Repr

/-- One instruction, a constructor for each of the 37 rows of R100. `n` is an unsigned byte (R94), `nn` a 16-bit immediate (R95), `e` the signed displacement of a relative jump, -128..127 (R96, R115; its range is checked in WellFormed). -/
inductive Instr where
  /-- `LD B, n`, opcode 0x06 (R202). -/
  | ldB (n : Byte)
  /-- `LD C, n`, opcode 0x0E (R203). -/
  | ldC (n : Byte)
  /-- `LD D, n`, opcode 0x16 (R204). -/
  | ldD (n : Byte)
  /-- `LD E, n`, opcode 0x1E (R205). -/
  | ldE (n : Byte)
  /-- `LD H, n`, opcode 0x26 (R206). -/
  | ldH (n : Byte)
  /-- `LD L, n`, opcode 0x2E (R207). -/
  | ldL (n : Byte)
  /-- `LD A, n`, opcode 0x3E (R208). -/
  | ldA (n : Byte)
  /-- `LD (HL), n`, opcode 0x36 (R210). -/
  | ldHL (n : Byte)
  /-- `JP nn`, opcode 0xC3 (R141). -/
  | jp (nn : Word)
  /-- `JP NZ, nn`, opcode 0xC2 (R143). -/
  | jpNZ (nn : Word)
  /-- `JP Z, nn`, opcode 0xCA (R144). -/
  | jpZ (nn : Word)
  /-- `JP NC, nn`, opcode 0xD2 (R145). -/
  | jpNC (nn : Word)
  /-- `JP C, nn`, opcode 0xDA (R146). -/
  | jpC (nn : Word)
  /-- `JR e`, opcode 0x18 (R150). -/
  | jr (e : Int)
  /-- `JR NZ, e`, opcode 0x20 (R152). -/
  | jrNZ (e : Int)
  /-- `JR Z, e`, opcode 0x28 (R153). -/
  | jrZ (e : Int)
  /-- `JR NC, e`, opcode 0x30 (R154). -/
  | jrNC (e : Int)
  /-- `JR C, e`, opcode 0x38 (R155). -/
  | jrC (e : Int)
  /-- `CALL nn`, opcode 0xCD (R160). -/
  | call (nn : Word)
  /-- `CALL NZ, nn`, opcode 0xC4 (R162). -/
  | callNZ (nn : Word)
  /-- `CALL Z, nn`, opcode 0xCC (R163). -/
  | callZ (nn : Word)
  /-- `CALL NC, nn`, opcode 0xD4 (R164). -/
  | callNC (nn : Word)
  /-- `CALL C, nn`, opcode 0xDC (R165). -/
  | callC (nn : Word)
  /-- `RET`, opcode 0xC9 (R170). -/
  | ret
  /-- `RET NZ`, opcode 0xC0 (R172). -/
  | retNZ
  /-- `RET Z`, opcode 0xC8 (R173). -/
  | retZ
  /-- `RET NC`, opcode 0xD0 (R174). -/
  | retNC
  /-- `RET C`, opcode 0xD8 (R175). -/
  | retC
  /-- `RST 0x00`, opcode 0xC7 (R181). -/
  | rst00
  /-- `RST 0x08`, opcode 0xCF (R182). -/
  | rst08
  /-- `RST 0x10`, opcode 0xD7 (R183). -/
  | rst10
  /-- `RST 0x18`, opcode 0xDF (R184). -/
  | rst18
  /-- `RST 0x20`, opcode 0xE7 (R185). -/
  | rst20
  /-- `RST 0x28`, opcode 0xEF (R186). -/
  | rst28
  /-- `RST 0x30`, opcode 0xF7 (R187). -/
  | rst30
  /-- `RST 0x38`, opcode 0xFF (R188). -/
  | rst38
  /-- `HALT`, opcode 0x76 (R220). -/
  | halt
deriving DecidableEq, Repr

end Sys2Proof
end

