-- ==== Sys2Proof/WellFormed.lean ====
section
/-! DEFINITION. Which instruction terms are instructions. The bytes `n` and the addresses `nn` are bounded by their types (R115: n in 0x00..0xFF, nn in 0x0000..0xFFFF), RST has one constructor for each legal operand (R114), so the one check left is the range of a relative jump's displacement (R96, R115). -/

namespace Sys2Proof

/-- A displacement the byte of a `JR` can hold: -128..127 (R96, R115). -/
abbrev DispInRange (e : Int) : Prop := -128 ≤ e ∧ e ≤ 127

/-- The instruction can be encoded: its displacement, if it has one, is in range. -/
def Instr.wf : Instr → Bool
  | .jr e | .jrNZ e | .jrZ e | .jrNC e | .jrC e => decide (DispInRange e)
  | .ldB _ | .ldC _ | .ldD _ | .ldE _ | .ldH _ | .ldL _ | .ldA _ | .ldHL _ => true
  | .jp _ | .jpNZ _ | .jpZ _ | .jpNC _ | .jpC _ => true
  | .call _ | .callNZ _ | .callZ _ | .callNC _ | .callC _ => true
  | .ret | .retNZ | .retZ | .retNC | .retC => true
  | .rst00 | .rst08 | .rst10 | .rst18 | .rst20 | .rst28 | .rst30 | .rst38 => true
  | .halt => true

end Sys2Proof
end

