-- ==== Sys2Proof/Decode.lean ====
section
/-! DEFINITION. Encoding (30_encoding.md): the byte and field helpers, the opcode table of R100 as the decoder, total on any bytes, and the encoder. The opcode values other than 0xC3 and the field layouts are the spec's general knowledge (UNVERIFIED, log entry 3: unsafe if the chip's values differ). -/

namespace Sys2Proof

/-- `v[7:0]` of a 16-bit value (R7). -/
def loByte (v : Word) : Byte := v.extractLsb' 0 8

/-- `v[15:8]` of a 16-bit value (R7). -/
def hiByte (v : Word) : Byte := v.extractLsb' 8 8

/-- `hi:lo`, the 16-bit value hi x 256 + lo (R7). -/
def joinBytes (hi lo : Byte) : Word := hi ++ lo

/-- The 16-bit immediate whose bytes are fetched low first: `low + (high << 8)` (R58, R95). -/
def imm16 (b1 b2 : Byte) : Word := b1.setWidth 16 + (b2.setWidth 16 <<< 8)

/-- The displacement a `JR` byte stands for, its two's-complement value -128..127 (R96). -/
def disp (b : Byte) : Int := b.toInt

/-- The byte that holds a displacement (R96, R115). -/
def dispByte (e : Int) : Byte := BitVec.ofInt 8 e

/-- The register field rrr = opcode[5:3] of the pattern `00 rrr 110` (R97). -/
def regField (op : Byte) : BitVec 3 := op.extractLsb' 3 3

/-- The condition field cc = opcode[4:3] of the conditional forms (R98). -/
def condField (op : Byte) : BitVec 2 := op.extractLsb' 3 2

/-- The restart field ttt = opcode[5:3] of the pattern `11 ttt 111`, the vector index (R99). -/
def rstField (op : Byte) : BitVec 3 := op.extractLsb' 3 3

/-- The register a register field names; 110 names the memory byte at HL, no register (R97). -/
def regOfField (rrr : BitVec 3) : Option Reg8 :=
  match rrr with
  | 0b000#3 => some .b
  | 0b001#3 => some .c
  | 0b010#3 => some .d
  | 0b011#3 => some .e
  | 0b100#3 => some .h
  | 0b101#3 => some .l
  | 0b110#3 => none
  | 0b111#3 => some .a

/-- The condition a condition field names (R98). -/
def condOfField (cc : BitVec 2) : Cond :=
  match cc with
  | 0b00#2 => .nz
  | 0b01#2 => .z
  | 0b10#2 => .nc
  | 0b11#2 => .c

/-- The opcode table, row by row as R100 lists it, applied to the operand bytes of the instruction; `none` for the 219 bytes it does not list (R102, R103, R104). -/
def tableEntry (op b1 b2 : Byte) : Option Instr :=
  match op with
  | 0x06#8 => some (.ldB b1)
  | 0x0E#8 => some (.ldC b1)
  | 0x16#8 => some (.ldD b1)
  | 0x1E#8 => some (.ldE b1)
  | 0x26#8 => some (.ldH b1)
  | 0x2E#8 => some (.ldL b1)
  | 0x3E#8 => some (.ldA b1)
  | 0x36#8 => some (.ldHL b1)
  | 0xC3#8 => some (.jp (imm16 b1 b2))
  | 0xC2#8 => some (.jpNZ (imm16 b1 b2))
  | 0xCA#8 => some (.jpZ (imm16 b1 b2))
  | 0xD2#8 => some (.jpNC (imm16 b1 b2))
  | 0xDA#8 => some (.jpC (imm16 b1 b2))
  | 0x18#8 => some (.jr (disp b1))
  | 0x20#8 => some (.jrNZ (disp b1))
  | 0x28#8 => some (.jrZ (disp b1))
  | 0x30#8 => some (.jrNC (disp b1))
  | 0x38#8 => some (.jrC (disp b1))
  | 0xCD#8 => some (.call (imm16 b1 b2))
  | 0xC4#8 => some (.callNZ (imm16 b1 b2))
  | 0xCC#8 => some (.callZ (imm16 b1 b2))
  | 0xD4#8 => some (.callNC (imm16 b1 b2))
  | 0xDC#8 => some (.callC (imm16 b1 b2))
  | 0xC9#8 => some .ret
  | 0xC0#8 => some .retNZ
  | 0xC8#8 => some .retZ
  | 0xD0#8 => some .retNC
  | 0xD8#8 => some .retC
  | 0xC7#8 => some .rst00
  | 0xCF#8 => some .rst08
  | 0xD7#8 => some .rst10
  | 0xDF#8 => some .rst18
  | 0xE7#8 => some .rst20
  | 0xEF#8 => some .rst28
  | 0xF7#8 => some .rst30
  | 0xFF#8 => some .rst38
  | 0x76#8 => some .halt
  | _ => none

/-- The format of an instruction (R90, column `format` of R100). -/
def Instr.format : Instr → Format
  | .ldB _ | .ldC _ | .ldD _ | .ldE _ | .ldH _ | .ldL _ | .ldA _ | .ldHL _ => .f2
  | .jp _ | .jpNZ _ | .jpZ _ | .jpNC _ | .jpC _ => .f3
  | .jr _ | .jrNZ _ | .jrZ _ | .jrNC _ | .jrC _ => .f2
  | .call _ | .callNZ _ | .callZ _ | .callNC _ | .callC _ => .f3
  | .ret | .retNZ | .retZ | .retNC | .retC => .f1
  | .rst00 | .rst08 | .rst10 | .rst18 | .rst20 | .rst28 | .rst30 | .rst38 => .f1
  | .halt => .f1

/-- The bytes of an instruction of a format (R90). -/
def Format.length : Format → Nat
  | .f1 => 1
  | .f2 => 2
  | .f3 => 3

/-- The encoded length: the bytes of an instruction, its opcode included (R10, R90). -/
def Instr.length (i : Instr) : Nat := i.format.length

/-- The written form of an instruction up to its last operand (R112, R113, R114). -/
def Instr.head : Instr → String
  | .ldB _ => "LD B, "
  | .ldC _ => "LD C, "
  | .ldD _ => "LD D, "
  | .ldE _ => "LD E, "
  | .ldH _ => "LD H, "
  | .ldL _ => "LD L, "
  | .ldA _ => "LD A, "
  | .ldHL _ => "LD (HL), "
  | .jp _ => "JP "
  | .jpNZ _ => "JP NZ, "
  | .jpZ _ => "JP Z, "
  | .jpNC _ => "JP NC, "
  | .jpC _ => "JP C, "
  | .jr _ => "JR "
  | .jrNZ _ => "JR NZ, "
  | .jrZ _ => "JR Z, "
  | .jrNC _ => "JR NC, "
  | .jrC _ => "JR C, "
  | .call _ => "CALL "
  | .callNZ _ => "CALL NZ, "
  | .callZ _ => "CALL Z, "
  | .callNC _ => "CALL NC, "
  | .callC _ => "CALL C, "
  | .ret => "RET"
  | .retNZ => "RET NZ"
  | .retZ => "RET Z"
  | .retNC => "RET NC"
  | .retC => "RET C"
  | .rst00 => "RST 0x00"
  | .rst08 => "RST 0x08"
  | .rst10 => "RST 0x10"
  | .rst18 => "RST 0x18"
  | .rst20 => "RST 0x20"
  | .rst28 => "RST 0x28"
  | .rst30 => "RST 0x30"
  | .rst38 => "RST 0x38"
  | .halt => "HALT"

/-- The letter the spec writes for the operand an instruction carries beside its opcode (R112); an F1 instruction has none. -/
def Instr.placeholder : Instr → String
  | .ldB _ | .ldC _ | .ldD _ | .ldE _ | .ldH _ | .ldL _ | .ldA _ | .ldHL _ => "n"
  | .jp _ | .jpNZ _ | .jpZ _ | .jpNC _ | .jpC _ => "nn"
  | .jr _ | .jrNZ _ | .jrZ _ | .jrNC _ | .jrC _ => "e"
  | .call _ | .callNZ _ | .callZ _ | .callNC _ | .callC _ => "nn"
  | .ret | .retNZ | .retZ | .retNC | .retC => ""
  | .rst00 | .rst08 | .rst10 | .rst18 | .rst20 | .rst28 | .rst30 | .rst38 => ""
  | .halt => ""

/-- The mnemonic of an instruction as R100 spells it. -/
def Instr.mnemonic (i : Instr) : String := i.head ++ i.placeholder

/-- What the decoder's table holds for an opcode byte beside the handler, which is `exec`'s arm (R10 'Instruction descriptor', R90). -/
structure Descriptor where
  mnemonic : String
  format : Format
  length : Nat
deriving DecidableEq, Repr

/-- `Table[op]`: the descriptor of an opcode byte, or `none`; a function of that byte alone (R90, R105, R108). -/
def descriptor (op : Byte) : Option Descriptor :=
  (tableEntry op 0x00#8 0x00#8).map fun i => ⟨i.mnemonic, i.format, i.length⟩

/-- The length the decoder knows from the opcode byte alone (R105). -/
def lengthOf (op : Byte) : Option Nat := (descriptor op).map Descriptor.length

/-- What the decoder answers: the instruction and the bytes after it, or the reason it reads none. Only `unknownOpcode` can come from a fetch, which always supplies the bytes the length asks for (log entry 21). -/
inductive DecodeResult where
  /-- The bytes begin with this instruction; `rest` follows it. -/
  | instr (i : Instr) (rest : List Byte)
  /-- The opcode byte is not in the table (R102). -/
  | unknownOpcode (op : Byte)
  /-- The opcode byte is in the table and the list ends before its operand bytes. -/
  | missingOperand (op : Byte)
  /-- There is no byte. -/
  | noByte
deriving DecidableEq, Repr

/-- The decoder, total on any list of bytes: the opcode byte decides, operand bytes follow it (R90, R108). -/
def decode : List Byte → DecodeResult
  | [] => .noByte
  | op :: rest =>
    match tableEntry op (rest.getD 0 0x00#8) (rest.getD 1 0x00#8) with
    | none => .unknownOpcode op
    | some i => if rest.length + 1 < i.length then .missingOperand op else .instr i (rest.drop (i.length - 1))

/-- The encoder: the bytes of an instruction, from the encodings of R100 and the operand layouts of R91 to R96. -/
def encode : Instr → List Byte
  | .ldB n => [0x06#8, n]
  | .ldC n => [0x0E#8, n]
  | .ldD n => [0x16#8, n]
  | .ldE n => [0x1E#8, n]
  | .ldH n => [0x26#8, n]
  | .ldL n => [0x2E#8, n]
  | .ldA n => [0x3E#8, n]
  | .ldHL n => [0x36#8, n]
  | .jp nn => [0xC3#8, loByte nn, hiByte nn]
  | .jpNZ nn => [0xC2#8, loByte nn, hiByte nn]
  | .jpZ nn => [0xCA#8, loByte nn, hiByte nn]
  | .jpNC nn => [0xD2#8, loByte nn, hiByte nn]
  | .jpC nn => [0xDA#8, loByte nn, hiByte nn]
  | .jr e => [0x18#8, dispByte e]
  | .jrNZ e => [0x20#8, dispByte e]
  | .jrZ e => [0x28#8, dispByte e]
  | .jrNC e => [0x30#8, dispByte e]
  | .jrC e => [0x38#8, dispByte e]
  | .call nn => [0xCD#8, loByte nn, hiByte nn]
  | .callNZ nn => [0xC4#8, loByte nn, hiByte nn]
  | .callZ nn => [0xCC#8, loByte nn, hiByte nn]
  | .callNC nn => [0xD4#8, loByte nn, hiByte nn]
  | .callC nn => [0xDC#8, loByte nn, hiByte nn]
  | .ret => [0xC9#8]
  | .retNZ => [0xC0#8]
  | .retZ => [0xC8#8]
  | .retNC => [0xD0#8]
  | .retC => [0xD8#8]
  | .rst00 => [0xC7#8]
  | .rst08 => [0xCF#8]
  | .rst10 => [0xD7#8]
  | .rst18 => [0xDF#8]
  | .rst20 => [0xE7#8]
  | .rst28 => [0xEF#8]
  | .rst30 => [0xF7#8]
  | .rst38 => [0xFF#8]
  | .halt => [0x76#8]

/-- The first three bytes of a number read as an instruction, byte k its bits 8k+7..8k: the first byte lies at the lowest address (R90 to R93). Bits at and above `nbits` are zero. -/
def wordBytes (nbits w : Nat) : List Byte :=
  let v := w % 2 ^ nbits
  [BitVec.ofNat 8 v, BitVec.ofNat 8 (v / 256), BitVec.ofNat 8 (v / 65536)]

/-- The instruction the decoder reads from an instruction word numbered as spec/opcode_table.json numbers it. -/
def decodeTableWord (nbits w : Nat) : Option Instr :=
  match decode (wordBytes nbits w) with
  | .instr i _ => some i
  | .unknownOpcode _ => none
  | .missingOperand _ => none
  | .noByte => none

end Sys2Proof
end

