-- ==== Sys2Proof/Config.lean ====
section
/-! DEFINITION. The implementation parameters of spec 00_scope.md R6. Each is a constant the spec fixes; the model has no free value, because the spec leaves no result open (93_implementation_defined.md, U1 to U16). -/

namespace Sys2Proof

/-- The parameter `STACK_BYTE_ORDER` of R6, R71 and R73: which byte of a 16-bit value a push writes first, at the higher address. -/
inductive StackByteOrder where
  | highFirst
  | lowFirst
deriving DecidableEq, Repr

namespace Config

/-- `MEM_SIZE`: bytes of memory, addresses 0..65535 (R6, R50). -/
abbrev memSize : Nat := 65536

/-- `CART_SIZE`: bytes of the cartridge region, which begins at address 0 (R6, R51). -/
abbrev cartSize : Nat := 32768

/-- `STACK_LO`: the lowest legal SP (R6, R27). -/
abbrev stackLo : Nat := 0xC000

/-- `STACK_BASE`: SP at reset and the highest legal SP (R6, R27). -/
abbrev stackBase : Nat := 0xE000

/-- `RST_STRIDE`: a restart target is the vector index times this (R6, R180). -/
abbrev rstStride : Nat := 8

/-- What a memory byte nobody has written holds: the reset value of every byte (R35, R53; log entry 5). -/
abbrev unlistedByte : Byte := 0x00#8

/-- The decided value of `STACK_BYTE_ORDER` (R59; UNVERIFIED, the spec's own decision D5, log entry 4: unsafe for claims about raw stack bytes). -/
abbrev stackByteOrder : StackByteOrder := .highFirst

end Config

end Sys2Proof
end

