-- ==== Sys2Proof/Machine/State.lean ====
section
/-! DEFINITION. The state of one core (10_state.md): "the seven 8-bit registers, PC, SP, the four flags, the 65,536-byte memory, the run state and the fault record. Nothing else is state." All of it is plain data. -/

namespace Sys2Proof.Machine

/-- The memory array M[0..65535] (R34, R50) as a sparse list of cells: addresses strictly rising, below 65,536, and no byte equal to `Config.unlistedByte`, which every address not listed holds (log entry 5). -/
abbrev Memory := List Host.Cell

/-- The four flags (R28): F.Z, F.N, F.H, F.C. -/
structure Flags where
  z : Bool
  n : Bool
  h : Bool
  c : Bool
deriving DecidableEq, Repr

/-- `RunState` (R31). -/
inductive RunState where
  | running
  | halted
  | faulted
deriving DecidableEq, Repr

/-- The kinds of the fault record (R32, R230). -/
inductive FaultKind where
  | none
  | unknownOpcode
  | stackOverflow
  | stackUnderflow
deriving DecidableEq, Repr

/-- The state component the spec writes `Fault` = (kind, addr, opcode) (R32). -/
structure FaultRecord where
  kind : FaultKind
  addr : Word
  opcode : Byte
deriving DecidableEq, Repr

/-- The record of a core that has not faulted: (0, 0x0000, 0x00) (R32, R35). -/
def FaultRecord.empty : FaultRecord := ⟨.none, 0x0000#16, 0x00#8⟩

/-- Everything 10_state.md gives the machine. HL (R24) and the flag byte (R30) are views, computed from these fields. -/
structure State where
  a : Byte
  b : Byte
  c : Byte
  d : Byte
  e : Byte
  h : Byte
  l : Byte
  pc : Word
  sp : Word
  flags : Flags
  mem : Memory
  runState : RunState
  fault : FaultRecord
deriving DecidableEq, Repr

/-- The state after Reset and after construction (R35, R270, R271): every value is the spec's. -/
def State.reset : State where
  a := 0x00#8
  b := 0x00#8
  c := 0x00#8
  d := 0x00#8
  e := 0x00#8
  h := 0x00#8
  l := 0x00#8
  pc := 0x0000#16
  sp := 0xE000#16
  flags := ⟨false, false, false, false⟩
  mem := []
  runState := .running
  fault := FaultRecord.empty

/-- Reasons for a step to stop without a next state: none. Each of the three faults of R230 leaves a state the spec describes (R232: `RunState` FAULTED and the fault record written), so a fault is a next state, never this outcome (log entry 1; safe). Nobody raises it: the type has no constructor. -/
inductive Fault : Type
deriving DecidableEq, Repr

/-- Reasons for an instruction to have no meaning. -/
inductive Refusal where
  /-- Raised by an arm of `exec` for an instruction that has no meaning yet (safe: the run stops). No arm raises it: all 37 instructions have their meaning. -/
  | notModelled (mnemonic : String)
deriving DecidableEq, Repr

end Sys2Proof.Machine
end

