-- ==== Sys2Proof/Machine/Ops.lean ====
section
/-! DEFINITION. The named operations over registers and memory, the stack engine (20_memory.md) and taking a fault (60_exceptions.md). -/

namespace Sys2Proof.Machine

/-! ### Memory as data -/

/-- The canonical form of a memory: addresses strictly rising and inside the array, no byte listed that an unlisted address reads as anyway. -/
abbrev Memory.wf (m : Memory) : Prop :=
  m.Pairwise (fun x y => x.1 < y.1) ∧ ∀ cell ∈ m, cell.1 < Config.memSize ∧ cell.2 ≠ Config.unlistedByte

/-- The byte the array holds at an address. -/
def Memory.read : Memory → Nat → Byte
  | [], _ => Config.unlistedByte
  | (k, v) :: rest, x => if k = x then v else Memory.read rest x

/-- Put a cell in its place in a list of rising addresses. -/
def Memory.insert : Memory → Nat → Byte → Memory
  | [], x, v => [(x, v)]
  | (k, w) :: rest, x, v => if x < k then (x, v) :: (k, w) :: rest else (k, w) :: Memory.insert rest x v

/-- The array with one byte replaced, in canonical form. -/
def Memory.write (m : Memory) (x : Nat) (v : Byte) : Memory :=
  let others := m.filter fun cell => cell.1 != x
  if v = Config.unlistedByte then others else Memory.insert others x v

/-! ### Registers and flags -/

/-- `R[r]` (R8, R20). -/
def State.reg (s : State) : Reg8 → Byte
  | .a => s.a
  | .b => s.b
  | .c => s.c
  | .d => s.d
  | .e => s.e
  | .h => s.h
  | .l => s.l

/-- `R[r] <- v` (R8, R21). -/
def State.setReg (s : State) (r : Reg8) (v : Byte) : State :=
  match r with
  | .a => { s with a := v }
  | .b => { s with b := v }
  | .c => { s with c := v }
  | .d => { s with d := v }
  | .e => { s with e := v }
  | .h => { s with h := v }
  | .l => { s with l := v }

/-- `pc <- target` (R8, R25). -/
def State.setPc (s : State) (target : Word) : State := { s with pc := target }

/-- The address k bytes after PC, modulo 65,536 (R26, R52): operand addresses, the next instruction, the return address. -/
def State.pcPlus (s : State) (k : Nat) : Word := s.pc + BitVec.ofNat 16 k

/-- Advance PC by the length of the instruction (R26, case (a)). -/
def State.advance (s : State) (len : Nat) : State := s.setPc (s.pcPlus len)

/-! ### The memory interface (R53, R54) -/

/-- `MemRead(addr, 1)`: never fails, no side effect (R9, R53, R55). An address of 16 bits is already reduced modulo 65,536 (R52). -/
def State.memRead (s : State) (addr : Word) : Byte := Memory.read s.mem addr.toNat

/-- `MemWrite(addr, 1, v)`: changes exactly one byte, never fails (R9, R54, R55). -/
def State.memWrite (s : State) (addr : Word) (v : Byte) : State :=
  { s with mem := Memory.write s.mem addr.toNat v }

/-! ### Taking a fault -/

/-- `raise <Fault>`: what every fault does to the state, precisely (R232). `RunState` becomes FAULTED and the record takes the kind, the PC of the instruction that failed and the byte at that PC (R32); PC, SP, registers, flags and memory keep their values. There is no handler, no saved context and no return (R237, R238): only Reset leaves FAULTED, so no operation stands beside this one. -/
def State.raise (s : State) (kind : FaultKind) : State :=
  { s with runState := .faulted, fault := ⟨kind, s.pc, s.memRead s.pc⟩ }

/-! ### The stack engine (R70 to R77) -/

/-- Push16 would take SP below 0xC000; the arithmetic is on unbounded integers (R72, D22). -/
def State.pushOverflows (s : State) : Bool := decide ((s.sp.toNat : Int) - 2 < (Config.stackLo : Int))

/-- Push8 would take SP below 0xC000 (R75, D22). -/
def State.push8Overflows (s : State) : Bool := decide ((s.sp.toNat : Int) - 1 < (Config.stackLo : Int))

/-- Pop16 would take SP above 0xE000 (R74, D22). -/
def State.popUnderflows (s : State) : Bool := decide ((s.sp.toNat : Int) + 2 > (Config.stackBase : Int))

/-- Decrement SP, then write one byte at it (R71, R75). -/
def State.pushByte (s : State) (v : Byte) : State :=
  let lower : State := { s with sp := s.sp - 1#16 }
  lower.memWrite lower.sp v

/-- The byte a push of `v` writes first, at the higher address (R71). -/
def firstPushed (order : StackByteOrder) (v : Word) : Byte :=
  match order with
  | .highFirst => hiByte v
  | .lowFirst => loByte v

/-- The byte a push of `v` writes second, at the lower address (R71). -/
def secondPushed (order : StackByteOrder) (v : Word) : Byte :=
  match order with
  | .highFirst => loByte v
  | .lowFirst => hiByte v

/-- `Push16(v)` for a given `STACK_BYTE_ORDER` (R71, R72): `none` is StackOverflow, tested before any write. -/
def push16With (order : StackByteOrder) (v : Word) (s : State) : Option State :=
  if s.pushOverflows then none
  else some ((s.pushByte (firstPushed order v)).pushByte (secondPushed order v))

/-- `Pop16()` for a given `STACK_BYTE_ORDER` (R73, R74): `none` is StackUnderflow, tested before any read. -/
def pop16With (order : StackByteOrder) (s : State) : Option (Word × State) :=
  if s.popUnderflows then none
  else
    let low := s.memRead s.sp
    let high := s.memRead (s.sp + 1#16)
    let value :=
      match order with
      | .highFirst => joinBytes high low
      | .lowFirst => joinBytes low high
    some (value, { s with sp := s.sp + 2#16 })

/-- `Push16(v)` in the decided byte order (R59, R71). -/
def push16 (v : Word) (s : State) : Option State := push16With Config.stackByteOrder v s

/-- `Pop16()` in the decided byte order (R59, R73). -/
def pop16 (s : State) : Option (Word × State) := pop16With Config.stackByteOrder s

/-- `Push8(v)` (R75): `none` is StackOverflow. No instruction uses it. -/
def push8 (v : Byte) (s : State) : Option State :=
  if s.push8Overflows then none else some (s.pushByte v)

/-- Several pushes, first to last, stopping at the first overflow (R77). -/
def pushAll (order : StackByteOrder) : List Word → State → Option State
  | [], s => some s
  | v :: rest, s =>
    match push16With order v s with
    | none => none
    | some pushed => pushAll order rest pushed

/-- Several pops; the values in the order popped, and the state (R77). -/
def popAll (order : StackByteOrder) : Nat → State → Option (List Word × State)
  | 0, s => some ([], s)
  | n + 1, s =>
    match pop16With order s with
    | none => none
    | some (v, popped) =>
      match popAll order n popped with
      | none => none
      | some (rest, final) => some (v :: rest, final)

end Sys2Proof.Machine
end

