-- ==== Sys2Proof/Machine/Flags.lean ====
section
/-! DEFINITION. The flags: the condition test (R106), the byte view (R30) and the accessors by name. No instruction of the block computes a flag (R29). -/

namespace Sys2Proof.Machine

/-- `cond(cc)`, tested against the flags at the moment of execution (R106). F.N and F.H are tested by no condition. -/
def condHolds (cc : Cond) (f : Flags) : Bool :=
  match cc with
  | .nz => !f.z
  | .z => f.z
  | .nc => !f.c
  | .c => f.c

/-- The names of the flags, for the host's accessors (R28, R280, R281). -/
inductive FlagName where
  | z | n | h | c
deriving DecidableEq, Repr

/-- `F.Z`, `F.N`, `F.H` or `F.C` (R8, R28). -/
def Flags.get (f : Flags) : FlagName → Bool
  | .z => f.z
  | .n => f.n
  | .h => f.h
  | .c => f.c

/-- The flags with one of them replaced (R281). -/
def Flags.set (f : Flags) (name : FlagName) (v : Bool) : Flags :=
  match name with
  | .z => { f with z := v }
  | .n => { f with n := v }
  | .h => { f with h := v }
  | .c => { f with c := v }

/-- One bit of the flag byte. -/
def flagBit (v : Bool) (bit : Nat) : Byte := if v then BitVec.twoPow 8 bit else 0x00#8

/-- The 8-bit view F = Z 2^7 + N 2^6 + H 2^5 + C 2^4, bits 3..0 zero (R30). No instruction or host operation reads it (UNVERIFIED, log entry 18; safe). -/
def Flags.byte (f : Flags) : Byte :=
  flagBit f.z 7 + flagBit f.n 6 + flagBit f.h 5 + flagBit f.c 4

end Sys2Proof.Machine
end

