-- ==== Sys2Proof/Machine/Operands.lean ====
section
/-! DEFINITION. The operand forms: the HL view and the byte it addresses, the immediate forms, the relative and restart targets, the return address. -/

namespace Sys2Proof.Machine

/-- `HL`, the 16-bit view R[H]:R[L], without storage of its own (R23, R24). -/
def State.hl (s : State) : Word := joinBytes s.h s.l

/-- `HL <- v`: R[H] <- v[15:8], R[L] <- v[7:0] (R24; the host's setter only). -/
def State.setHl (s : State) (v : Word) : State := { s with h := hiByte v, l := loByte v }

/-- The address `LD (HL), n` stores to (R210). -/
def State.hlTarget (s : State) : Word := s.hl

/-- A relative jump's target: the address of the byte after the 2-byte instruction plus e, modulo 65,536 (R96, R150). -/
def State.relTarget (s : State) (e : Int) : Word := s.pcPlus 2 + BitVec.ofInt 16 e

/-- A restart's target: the vector index times 8 (R99, R180). -/
def rstTarget (index : BitVec 3) : Word := index.setWidth 16 * BitVec.ofNat 16 Config.rstStride

/-- The address after a CALL, 3 bytes long (R160). -/
def State.callReturn (s : State) : Word := s.pcPlus 3

/-- The address after an RST, 1 byte long (R180). -/
def State.rstReturn (s : State) : Word := s.pcPlus 1

end Sys2Proof.Machine
end

