-- ==== Sys2Proof/Machine/Calls.lean ====
section
/-! DEFINITION. Call, return and restart (41_control_flow.md R160 to R188): the users of the stack engine (R70). When the engine refuses, the instruction takes the fault and nothing else happens (R232 to R234). -/

namespace Sys2Proof.Machine

/-- Push a return address and jump, or take StackOverflow (R160, R180, R233). -/
def callTo (ret target : Word) (s : State) : Host.Outcome State Fault Refusal :=
  match push16 ret s with
  | none => .next (s.raise .stackOverflow)
  | some pushed => .next (pushed.setPc target)

/-- Pop PC, or take StackUnderflow (R170, R234). -/
def returnPop (s : State) : Host.Outcome State Fault Refusal :=
  match pop16 s with
  | none => .next (s.raise .stackUnderflow)
  | some (target, popped) => .next (popped.setPc target)

/-- `CALL cc, nn` (R161): a call when the condition holds, else past the 3-byte instruction with no stack effect. -/
def callIf (cc : Cond) (nn : Word) (s : State) : Host.Outcome State Fault Refusal :=
  if condHolds cc s.flags then callTo s.callReturn nn s else .next (s.advance 3)

/-- `RET cc` (R171): a return when the condition holds, else past the 1-byte instruction with no stack effect. -/
def returnIf (cc : Cond) (s : State) : Host.Outcome State Fault Refusal :=
  if condHolds cc s.flags then returnPop s else .next (s.advance 1)

/-- `RST n` (R180): a call to the vector index times 8. -/
def restart (index : BitVec 3) (s : State) : Host.Outcome State Fault Refusal :=
  callTo s.rstReturn (rstTarget index) s

/-- `CALL nn` (R160). -/
def execCall (nn : Word) (s : State) : Host.Outcome State Fault Refusal := callTo s.callReturn nn s

/-- `CALL NZ, nn` (R162). -/
def execCallNZ (nn : Word) (s : State) : Host.Outcome State Fault Refusal := callIf .nz nn s

/-- `CALL Z, nn` (R163). -/
def execCallZ (nn : Word) (s : State) : Host.Outcome State Fault Refusal := callIf .z nn s

/-- `CALL NC, nn` (R164). -/
def execCallNC (nn : Word) (s : State) : Host.Outcome State Fault Refusal := callIf .nc nn s

/-- `CALL C, nn` (R165). -/
def execCallC (nn : Word) (s : State) : Host.Outcome State Fault Refusal := callIf .c nn s

/-- `RET` (R170). -/
def execRet (s : State) : Host.Outcome State Fault Refusal := returnPop s

/-- `RET NZ` (R172). -/
def execRetNZ (s : State) : Host.Outcome State Fault Refusal := returnIf .nz s

/-- `RET Z` (R173). -/
def execRetZ (s : State) : Host.Outcome State Fault Refusal := returnIf .z s

/-- `RET NC` (R174). -/
def execRetNC (s : State) : Host.Outcome State Fault Refusal := returnIf .nc s

/-- `RET C` (R175). -/
def execRetC (s : State) : Host.Outcome State Fault Refusal := returnIf .c s

/-- `RST 0x00` (R181): vector index 0. -/
def execRst00 (s : State) : Host.Outcome State Fault Refusal := restart 0#3 s

/-- `RST 0x08` (R182): vector index 1. -/
def execRst08 (s : State) : Host.Outcome State Fault Refusal := restart 1#3 s

/-- `RST 0x10` (R183): vector index 2. -/
def execRst10 (s : State) : Host.Outcome State Fault Refusal := restart 2#3 s

/-- `RST 0x18` (R184): vector index 3. -/
def execRst18 (s : State) : Host.Outcome State Fault Refusal := restart 3#3 s

/-- `RST 0x20` (R185): vector index 4. -/
def execRst20 (s : State) : Host.Outcome State Fault Refusal := restart 4#3 s

/-- `RST 0x28` (R186): vector index 5. -/
def execRst28 (s : State) : Host.Outcome State Fault Refusal := restart 5#3 s

/-- `RST 0x30` (R187): vector index 6. -/
def execRst30 (s : State) : Host.Outcome State Fault Refusal := restart 6#3 s

/-- `RST 0x38` (R188): vector index 7. -/
def execRst38 (s : State) : Host.Outcome State Fault Refusal := restart 7#3 s

end Sys2Proof.Machine
end

