-- ==== Sys2Proof/Machine/Halt.lean ====
section
/-! DEFINITION. Halt (43_halt.md R220). -/

namespace Sys2Proof.Machine

/-- `HALT` (R220): `pc <- PC + 1; RunState <- HALTED`, terminal until Reset (UNVERIFIED, the spec's decision D4, log entry 11: unsafe for a chip that wakes). -/
def execHalt (s : State) : Host.Outcome State Fault Refusal :=
  .next { s.advance 1 with runState := .halted }

end Sys2Proof.Machine
end

