-- ==== Sys2Proof/Machine/Jumps.lean ====
section
/-! DEFINITION. The jumps (41_control_flow.md R141 to R155): absolute and relative, each with its four conditional forms. They write PC alone. -/

namespace Sys2Proof.Machine

/-- `JP cc, nn` (R142): PC is nn when the condition holds, else the address after the 3-byte instruction. -/
def jumpIf (cc : Cond) (nn : Word) (s : State) : Host.Outcome State Fault Refusal :=
  if condHolds cc s.flags then .next (s.setPc nn) else .next (s.advance 3)

/-- `JR cc, e` (R151): PC is PC + 2 + e when the condition holds, else the address after the 2-byte instruction. -/
def jumpRelIf (cc : Cond) (e : Int) (s : State) : Host.Outcome State Fault Refusal :=
  if condHolds cc s.flags then .next (s.setPc (s.relTarget e)) else .next (s.advance 2)

/-- `JP nn` (R141). -/
def execJp (nn : Word) (s : State) : Host.Outcome State Fault Refusal := .next (s.setPc nn)

/-- `JP NZ, nn` (R143). -/
def execJpNZ (nn : Word) (s : State) : Host.Outcome State Fault Refusal := jumpIf .nz nn s

/-- `JP Z, nn` (R144). -/
def execJpZ (nn : Word) (s : State) : Host.Outcome State Fault Refusal := jumpIf .z nn s

/-- `JP NC, nn` (R145). -/
def execJpNC (nn : Word) (s : State) : Host.Outcome State Fault Refusal := jumpIf .nc nn s

/-- `JP C, nn` (R146). -/
def execJpC (nn : Word) (s : State) : Host.Outcome State Fault Refusal := jumpIf .c nn s

/-- `JR e` (R150). -/
def execJr (e : Int) (s : State) : Host.Outcome State Fault Refusal := .next (s.setPc (s.relTarget e))

/-- `JR NZ, e` (R152). -/
def execJrNZ (e : Int) (s : State) : Host.Outcome State Fault Refusal := jumpRelIf .nz e s

/-- `JR Z, e` (R153). -/
def execJrZ (e : Int) (s : State) : Host.Outcome State Fault Refusal := jumpRelIf .z e s

/-- `JR NC, e` (R154). -/
def execJrNC (e : Int) (s : State) : Host.Outcome State Fault Refusal := jumpRelIf .nc e s

/-- `JR C, e` (R155). -/
def execJrC (e : Int) (s : State) : Host.Outcome State Fault Refusal := jumpRelIf .c e s

end Sys2Proof.Machine
end

