-- ==== Sys2Proof/Machine/Loads.lean ====
section
/-! DEFINITION. The load family (42_loads.md R200 to R210): immediate to register, immediate to the byte at HL. Two bytes long, no flag written, no fault. -/

namespace Sys2Proof.Machine

/-- `LD r, n` (R201): `R[r] <- b1; pc <- PC + 2`. -/
def loadReg (r : Reg8) (n : Byte) (s : State) : Host.Outcome State Fault Refusal :=
  .next ((s.setReg r n).advance 2)

/-- `LD B, n` (R202). -/
def execLdB (n : Byte) (s : State) : Host.Outcome State Fault Refusal := loadReg .b n s

/-- `LD C, n` (R203). -/
def execLdC (n : Byte) (s : State) : Host.Outcome State Fault Refusal := loadReg .c n s

/-- `LD D, n` (R204). -/
def execLdD (n : Byte) (s : State) : Host.Outcome State Fault Refusal := loadReg .d n s

/-- `LD E, n` (R205). -/
def execLdE (n : Byte) (s : State) : Host.Outcome State Fault Refusal := loadReg .e n s

/-- `LD H, n` (R206). -/
def execLdH (n : Byte) (s : State) : Host.Outcome State Fault Refusal := loadReg .h n s

/-- `LD L, n` (R207). -/
def execLdL (n : Byte) (s : State) : Host.Outcome State Fault Refusal := loadReg .l n s

/-- `LD A, n` (R208). -/
def execLdA (n : Byte) (s : State) : Host.Outcome State Fault Refusal := loadReg .a n s

/-- `LD (HL), n` (R210): `MemWrite(HL, 1, b1); pc <- PC + 2`; any address may be written (R54, R55). -/
def execLdHL (n : Byte) (s : State) : Host.Outcome State Fault Refusal :=
  .next ((s.memWrite s.hlTarget n).advance 2)

end Sys2Proof.Machine
end

