-- ==== Sys2Proof/Machine/Dispatch.lean ====
section
/-! DEFINITION. The dispatch of R110: one arm for each constructor of Instr, a direct call of its meaning. -/

namespace Sys2Proof.Machine

/-- The handler of an instruction, applied to a state whose PC is the address of its opcode byte (R25, R109, R110). -/
def exec (i : Instr) (s : State) : Host.Outcome State Fault Refusal :=
  match i with
  | .ldB n => Sys2Proof.Machine.execLdB n s
  | .ldC n => Sys2Proof.Machine.execLdC n s
  | .ldD n => Sys2Proof.Machine.execLdD n s
  | .ldE n => Sys2Proof.Machine.execLdE n s
  | .ldH n => Sys2Proof.Machine.execLdH n s
  | .ldL n => Sys2Proof.Machine.execLdL n s
  | .ldA n => Sys2Proof.Machine.execLdA n s
  | .ldHL n => Sys2Proof.Machine.execLdHL n s
  | .jp nn => Sys2Proof.Machine.execJp nn s
  | .jpNZ nn => Sys2Proof.Machine.execJpNZ nn s
  | .jpZ nn => Sys2Proof.Machine.execJpZ nn s
  | .jpNC nn => Sys2Proof.Machine.execJpNC nn s
  | .jpC nn => Sys2Proof.Machine.execJpC nn s
  | .jr e => Sys2Proof.Machine.execJr e s
  | .jrNZ e => Sys2Proof.Machine.execJrNZ e s
  | .jrZ e => Sys2Proof.Machine.execJrZ e s
  | .jrNC e => Sys2Proof.Machine.execJrNC e s
  | .jrC e => Sys2Proof.Machine.execJrC e s
  | .call nn => Sys2Proof.Machine.execCall nn s
  | .callNZ nn => Sys2Proof.Machine.execCallNZ nn s
  | .callZ nn => Sys2Proof.Machine.execCallZ nn s
  | .callNC nn => Sys2Proof.Machine.execCallNC nn s
  | .callC nn => Sys2Proof.Machine.execCallC nn s
  | .ret => Sys2Proof.Machine.execRet s
  | .retNZ => Sys2Proof.Machine.execRetNZ s
  | .retZ => Sys2Proof.Machine.execRetZ s
  | .retNC => Sys2Proof.Machine.execRetNC s
  | .retC => Sys2Proof.Machine.execRetC s
  | .rst00 => Sys2Proof.Machine.execRst00 s
  | .rst08 => Sys2Proof.Machine.execRst08 s
  | .rst10 => Sys2Proof.Machine.execRst10 s
  | .rst18 => Sys2Proof.Machine.execRst18 s
  | .rst20 => Sys2Proof.Machine.execRst20 s
  | .rst28 => Sys2Proof.Machine.execRst28 s
  | .rst30 => Sys2Proof.Machine.execRst30 s
  | .rst38 => Sys2Proof.Machine.execRst38 s
  | .halt => Sys2Proof.Machine.execHalt s

end Sys2Proof.Machine
end

