-- ==== Sys2Proof/Machine/Fetch.lean ====
section
/-! DEFINITION. The fetch unit (30_encoding.md R107) and the bytes of an instruction placed where it reads them. -/

namespace Sys2Proof.Machine

/-- How many bytes the fetch unit reads for the instruction at PC: its length, or the opcode byte alone when that is not in the table (R102, R105, R107, D23). -/
def fetchLength (s : State) : Nat := (lengthOf (s.memRead s.pc)).getD 1

/-- The addresses the fetch unit reads, in order: PC, then PC + 1 and PC + 2 as far as the length goes, modulo 65,536 (R61, R107). -/
def fetchAddresses (s : State) : List Word := (List.range (fetchLength s)).map s.pcPlus

/-- `Fetch(0)`, `Fetch(1)`, ...: the bytes of the instruction at PC (R9, R107). They are read before any data access (R61). -/
def fetchBytes (s : State) : List Byte := (fetchAddresses s).map s.memRead

/-- Bytes stored one after another from an address on, addresses modulo 65,536. -/
def storeBytes : List Byte → Word → State → State
  | [], _, s => s
  | v :: rest, addr, s => storeBytes rest (addr + 1#16) (s.memWrite addr v)

end Sys2Proof.Machine
end

