-- ==== Sys2Proof/Machine/Step.lean ====
section
/-! DEFINITION. The instruction cycle (30_encoding.md R109). -/

namespace Sys2Proof.Machine

/-- One Step of the core (R109, R282). A HALTED or FAULTED core executes nothing and changes nothing (R220, R238; log entry 2). A RUNNING core fetches and decodes at PC, then runs the instruction's rule or takes UnknownOpcode (R231). The answers `missingOperand` and `noByte` cannot come from a fetch; they are given the same fault so that the function is total (log entry 21). -/
def step (s : State) : Host.Outcome State Fault Refusal :=
  match s.runState with
  | .halted => .next s
  | .faulted => .next s
  | .running =>
    match decode (fetchBytes s) with
    | .instr i _ => exec i s
    | .unknownOpcode _ => .next (s.raise .unknownOpcode)
    | .missingOperand _ => .next (s.raise .unknownOpcode)
    | .noByte => .next (s.raise .unknownOpcode)

/-- The state with an instruction word placed where the next step fetches: its three bytes (those above `nbits` zero) at PC, PC + 1 and PC + 2. A step runs an instruction only in RUNNING, so the run state is RUNNING and the fault record that of a running core (log entry 7). -/
def State.withFetchWord (s : State) (nbits w : Nat) : State :=
  { storeBytes (wordBytes nbits w) s.pc s with runState := .running, fault := FaultRecord.empty }

end Sys2Proof.Machine
end

