-- ==== Sys2Proof/Machine/Assembler.lean ====
section
/-! DEFINITION. The assembler's written form (30_encoding.md R112 to R116). It changes no state; it is here so that the spec's syntax rules have a meaning. Which of the two number spellings of R116 is used is log entry 17. -/

namespace Sys2Proof.Machine

/-- One hexadecimal digit. -/
def hexDigit (d : Nat) : Char :=
  ['0', '1', '2', '3', '4', '5', '6', '7', '8', '9', 'A', 'B', 'C', 'D', 'E', 'F'].getD (d % 16) '0'

/-- A byte as `0x..` (R116). -/
def hexByte (v : Byte) : String :=
  "0x" ++ String.ofList [hexDigit (v.toNat / 16), hexDigit v.toNat]

/-- A 16-bit value as `0x....` (R116). -/
def hexWord (v : Word) : String :=
  "0x" ++ String.ofList [hexDigit (v.toNat / 4096), hexDigit (v.toNat / 256), hexDigit (v.toNat / 16), hexDigit v.toNat]

/-- The written operand an instruction carries beside its opcode: bytes and addresses in hexadecimal, displacements as signed decimals (R115, R116). -/
def operandText : Instr → String
  | .ldB n | .ldC n | .ldD n | .ldE n | .ldH n | .ldL n | .ldA n | .ldHL n => hexByte n
  | .jp nn | .jpNZ nn | .jpZ nn | .jpNC nn | .jpC nn => hexWord nn
  | .jr e | .jrNZ e | .jrZ e | .jrNC e | .jrC e => toString e
  | .call nn | .callNZ nn | .callZ nn | .callNC nn | .callC nn => hexWord nn
  | .ret | .retNZ | .retZ | .retNC | .retC => ""
  | .rst00 | .rst08 | .rst10 | .rst18 | .rst20 | .rst28 | .rst30 | .rst38 => ""
  | .halt => ""

/-- An instruction in the assembler's syntax, for example `JP NZ, 0x4000` (R112, R113). -/
def asmText (i : Instr) : String := i.head ++ operandText i

/-- The instruction `RST n` for a written operand n; any other n is not an instruction (R114). -/
def rstOfOperand (n : Nat) : Option Instr :=
  match n with
  | 0x00 => some .rst00
  | 0x08 => some .rst08
  | 0x10 => some .rst10
  | 0x18 => some .rst18
  | 0x20 => some .rst20
  | 0x28 => some .rst28
  | 0x30 => some .rst30
  | 0x38 => some .rst38
  | _ => none

/-- The displacement of a `JR` at an address that is written with a target: e = t - (address + 2), which must be in range (R115). The sum and the difference are 16-bit, modulo 65,536 (R7, R52), so a target past the end of memory or before its start is reached (95_test_vectors.md P5); the difference is read in two's complement. -/
def dispToTarget (addr target : Word) : Option Int :=
  let e := (target - (addr + 2#16)).toInt
  if DispInRange e then some e else none

end Sys2Proof.Machine
end

