-- ==== Sys2Proof/Machine/HostPort.lean ====
section
/-! DEFINITION. The host interface (70_reset_and_hazards.md): the second agent of R284. Its operations happen one at a time and only between Steps, so each is a function from a state to an answer and a state. Numbers the host gives are natural numbers, reduced as R281 says (log entry 12). -/

namespace Sys2Proof.Machine

/-- What Step returns (R282). -/
inductive StepResult where
  | ok
  | halted
  | faulted (record : FaultRecord)
deriving DecidableEq, Repr

/-- What Run returns (R283). -/
inductive RunResult where
  | halted
  | faulted (record : FaultRecord)
  | budgetExhausted
deriving DecidableEq, Repr

/-- What Load returns (R272). -/
inductive LoadResult where
  | ok
  | programTooLarge
deriving DecidableEq, Repr

/-- The code of a fault kind (R230, R32). -/
def faultCode : FaultKind → Nat
  | .none => 0
  | .unknownOpcode => 1
  | .stackOverflow => 2
  | .stackUnderflow => 3

/-- The code of a load's result where a number is wanted: 4 for ProgramTooLarge (R235). -/
def loadCode : LoadResult → Nat
  | .ok => 0
  | .programTooLarge => 4

/-- The state after one Step. A step always answers a next state (Laws/Step.lean, `step_answers_next`); the other two answers would leave the state as it is. -/
def stepState (s : State) : State :=
  match step s with
  | .next t => t
  | .fault _ => s
  | .refused _ => s

/-- What a Step that left this state returns (R282): Ok iff RUNNING. -/
def stepResult (after : State) : StepResult :=
  match after.runState with
  | .running => .ok
  | .halted => .halted
  | .faulted => .faulted after.fault

/-- `Reset()` (R270): every piece of state takes its reset value; always succeeds. Construction gives the same state (R271). -/
def resetCore (_ : State) : State := State.reset

/-- `Load(bytes, base)` (R272): refused when it would pass the cartridge region, tested on unbounded integers before any write; registers, flags, PC, SP, `RunState` and `Fault` keep their values. -/
def loadProgram (bytes : List Byte) (base : Nat) (s : State) : LoadResult × State :=
  if base + bytes.length > Config.cartSize then (.programTooLarge, s)
  else (.ok, storeBytes bytes (BitVec.ofNat 16 base) s)

/-- `Run(budget)` (R283): the stop tests come before the budget test, and a Step that halts or faults counts. -/
def run : Nat → State → RunResult × State
  | 0, s =>
    match s.runState with
    | .halted => (.halted, s)
    | .faulted => (.faulted s.fault, s)
    | .running => (.budgetExhausted, s)
  | n + 1, s =>
    match s.runState with
    | .halted => (.halted, s)
    | .faulted => (.faulted s.fault, s)
    | .running => run n (stepState s)

/-- SetSP is accepted only for values in [0xC000, 0xE000] (R281, D12). -/
abbrev SpInRange (v : Nat) : Prop := Config.stackLo ≤ v ∧ v ≤ Config.stackBase

/-- An operation of the host (R270 to R284). -/
inductive HostOp where
  | reset
  | load (bytes : List Byte) (base : Nat)
  | step
  | run (budget : Nat)
  | readReg (r : Reg8)
  | readHl
  | readPc
  | readSp
  | readFlag (name : FlagName)
  | readMem (addr : Nat)
  | readRunState
  | readFault
  | setReg (r : Reg8) (v : Nat)
  | setHl (v : Nat)
  | setPc (v : Nat)
  | setSp (v : Nat)
  | setFlag (name : FlagName) (v : Bool)
deriving DecidableEq, Repr

/-- The answer to an operation of the host. -/
inductive HostAnswer where
  | done
  | refused
  | loaded (result : LoadResult)
  | stepped (result : StepResult)
  | ran (result : RunResult)
  | byte (v : Byte)
  | word (v : Word)
  | flag (v : Bool)
  | runState (v : RunState)
  | fault (v : FaultRecord)
deriving DecidableEq, Repr

/-- One step of the host agent (R280 to R284): an answer and the state after it. -/
def hostStep (op : HostOp) (s : State) : HostAnswer × State :=
  match op with
  | .reset => (.done, resetCore s)
  | .load bytes base =>
    let (result, loaded) := loadProgram bytes base s
    (.loaded result, loaded)
  | .step => (.stepped (stepResult (stepState s)), stepState s)
  | .run budget =>
    let (result, final) := run budget s
    (.ran result, final)
  | .readReg r => (.byte (s.reg r), s)
  | .readHl => (.word s.hl, s)
  | .readPc => (.word s.pc, s)
  | .readSp => (.word s.sp, s)
  | .readFlag name => (.flag (s.flags.get name), s)
  | .readMem addr => (.byte (s.memRead (BitVec.ofNat 16 addr)), s)
  | .readRunState => (.runState s.runState, s)
  | .readFault => (.fault s.fault, s)
  | .setReg r v => (.done, s.setReg r (BitVec.ofNat 8 v))
  | .setHl v => (.done, s.setHl (BitVec.ofNat 16 v))
  | .setPc v => (.done, s.setPc (BitVec.ofNat 16 v))
  | .setSp v => if SpInRange v then (.done, { s with sp := BitVec.ofNat 16 v }) else (.refused, s)
  | .setFlag name v => (.done, { s with flags := s.flags.set name v })

/-- Several operations of the host, one after another; the answers in order and the state after the last (R284). -/
def hostSteps : List HostOp → State → List HostAnswer × State
  | [], s => ([], s)
  | op :: rest, s =>
    let (answer, next) := hostStep op s
    let (answers, final) := hostSteps rest next
    (answer :: answers, final)

end Sys2Proof.Machine
end

