-- ==== Sys2Proof/Safety.lean ====
section
/-! DEFINITION. What counts as a legal state and a safe run, and the words the statements are written in: the invariants of R27, R32 and R36, and the frames. -/

namespace Sys2Proof.Machine

/-- The state invariants every rule and every host operation preserves (R36, R27, R32). That PC is in 0..65535, that registers hold 0..255 and that HL is H:L is so by the types and by `State.hl`. -/
structure State.Inv (s : State) : Prop where
  /-- The memory list is canonical, so equal arrays are equal data (log entry 5). -/
  mem : Memory.wf s.mem
  /-- SP is within [0xC000, 0xE000] (R27). -/
  sp : SpInRange s.sp.toNat
  /-- The fault record is (0, 0, 0) except in FAULTED (R32). -/
  quiet : s.runState ≠ .faulted → s.fault = FaultRecord.empty
  /-- In FAULTED it names a fault (R32). -/
  named : s.runState = .faulted → s.fault.kind ≠ .none

/-- In FAULTED, the record holds the PC and the byte there (R32). Every step keeps it; a host setter or Load may not. -/
def State.RecordsStop (s : State) : Prop :=
  s.runState = .faulted → s.fault.addr = s.pc ∧ s.fault.opcode = s.memRead s.pc

/-- A safe run has not faulted: the core is RUNNING or HALTED (R31). -/
def State.Safe (s : State) : Prop := s.runState ≠ .faulted

/-- Every byte of memory reads as before. -/
def SameMem (s t : State) : Prop := ∀ x : Word, t.memRead x = s.memRead x

/-- Every byte of memory outside these addresses reads as before. -/
def SameMemExcept (targets : List Word) (s t : State) : Prop :=
  ∀ x : Word, x ∉ targets → t.memRead x = s.memRead x

/-- Every 8-bit register is as before. -/
def SameRegs (s t : State) : Prop := ∀ r : Reg8, t.reg r = s.reg r

/-- Every 8-bit register but one is as before. -/
def SameRegsExcept (r : Reg8) (s t : State) : Prop := ∀ q : Reg8, q ≠ r → t.reg q = s.reg q

/-- The run state and the fault record are as before. -/
def SameControl (s t : State) : Prop := t.runState = s.runState ∧ t.fault = s.fault

/-- Registers, flags and control are as before: all that an instruction which only moves PC, SP or memory leaves. -/
def SameData (s t : State) : Prop := SameRegs s t ∧ t.flags = s.flags ∧ SameControl s t

/-- The instruction, run on `s`, answers a next state of which `Q` holds. -/
def Completes (i : Instr) (s : State) (Q : State → Prop) : Prop := ∃ t, exec i s = .next t ∧ Q t

/-- Only PC changed, and it is now `target`. -/
def JumpedTo (target : Word) (s t : State) : Prop :=
  t.pc = target ∧ t.sp = s.sp ∧ SameData s t ∧ SameMem s t

/-- `ret` was pushed high byte first and PC is now `target` (R71, R160): SP is two lower, the two bytes below the old SP hold `ret`, nothing else changed. -/
def CalledTo (target ret : Word) (s t : State) : Prop :=
  t.pc = target ∧ t.sp = s.sp - 2#16 ∧ SameData s t ∧
  t.memRead (s.sp - 1#16) = hiByte ret ∧ t.memRead (s.sp - 2#16) = loByte ret ∧ SameMemExcept [s.sp - 1#16, s.sp - 2#16] s t

/-- PC is the 16-bit value whose low byte stood at SP and whose high byte stood above it (R73, R170), SP is two higher, nothing else changed. -/
def Returned (s t : State) : Prop :=
  t.pc = joinBytes (s.memRead (s.sp + 1#16)) (s.memRead s.sp) ∧ t.sp = s.sp + 2#16 ∧ SameData s t ∧ SameMem s t

/-- The fault was taken, precisely (R232): the run state and the record alone changed. -/
def FaultTaken (kind : FaultKind) (s t : State) : Prop :=
  t.runState = .faulted ∧ t.fault = ⟨kind, s.pc, s.memRead s.pc⟩ ∧
  t.pc = s.pc ∧ t.sp = s.sp ∧ t.flags = s.flags ∧ SameRegs s t ∧ SameMem s t

/-- Every piece of state has the value R35 gives it at reset: registers, flags, HL, the flag byte and PC zero, SP 0xE000, every byte 0x00, RUNNING, the fault record (0, 0x0000, 0x00). -/
def HasResetValues (s : State) : Prop :=
  (∀ r : Reg8, s.reg r = 0x00#8) ∧ s.hl = 0x0000#16 ∧ s.pc = 0x0000#16 ∧ s.sp = 0xE000#16 ∧
  s.flags = ⟨false, false, false, false⟩ ∧ s.flags.byte = 0x00#8 ∧ (∀ x : Word, s.memRead x = 0x00#8) ∧
  s.runState = .running ∧ s.fault = ⟨.none, 0x0000#16, 0x00#8⟩

/-- The 37 opcode bytes of R100, in its order. -/
def listedOpcodes : List Byte :=
  [0x06#8, 0x0E#8, 0x16#8, 0x1E#8, 0x26#8, 0x2E#8, 0x3E#8, 0x36#8] ++
  [0xC3#8, 0xC2#8, 0xCA#8, 0xD2#8, 0xDA#8, 0x18#8, 0x20#8, 0x28#8, 0x30#8, 0x38#8] ++
  [0xCD#8, 0xC4#8, 0xCC#8, 0xD4#8, 0xDC#8, 0xC9#8, 0xC0#8, 0xC8#8, 0xD0#8, 0xD8#8] ++
  [0xC7#8, 0xCF#8, 0xD7#8, 0xDF#8, 0xE7#8, 0xEF#8, 0xF7#8, 0xFF#8, 0x76#8]

/-- The opcode byte is one that pushes a return address with these flags: CALL nn, a taken CALL cc, nn or an RST n (R230, column `raised by` of StackOverflow). -/
def PushesNow (op : Byte) (f : Flags) : Prop :=
  op ∈ [0xCD#8, 0xC7#8, 0xCF#8, 0xD7#8, 0xDF#8, 0xE7#8, 0xEF#8, 0xF7#8, 0xFF#8] ∨
  (op = 0xC4#8 ∧ f.z = false) ∨ (op = 0xCC#8 ∧ f.z = true) ∨ (op = 0xD4#8 ∧ f.c = false) ∨ (op = 0xDC#8 ∧ f.c = true)

/-- The opcode byte is one that pops PC with these flags: RET or a taken RET cc (R230, column `raised by` of StackUnderflow). -/
def PopsNow (op : Byte) (f : Flags) : Prop :=
  op = 0xC9#8 ∨
  (op = 0xC0#8 ∧ f.z = false) ∨ (op = 0xC8#8 ∧ f.z = true) ∨ (op = 0xD0#8 ∧ f.c = false) ∨ (op = 0xD8#8 ∧ f.c = true)

/-- The opcode of `LD r, n` for a register (R202 to R208). -/
def loadOpcode : Reg8 → Byte
  | .b => 0x06#8
  | .c => 0x0E#8
  | .d => 0x16#8
  | .e => 0x1E#8
  | .h => 0x26#8
  | .l => 0x2E#8
  | .a => 0x3E#8

/-- The rule of `LD r, n` (R201): the register takes n, PC advances by 2, everything else is as before. -/
def LoadRule (i : Instr) (r : Reg8) (n : Byte) (s : State) : Prop :=
  Completes i s fun t =>
    t.reg r = n ∧ t.pc = s.pc + 2#16 ∧ SameRegsExcept r s t ∧ t.sp = s.sp ∧ t.flags = s.flags ∧ SameControl s t ∧ SameMem s t

/-- The rule of a jump (R142, R151): PC is the target when taken, else the address after the instruction; nothing else changes. -/
def JumpRule (i : Instr) (taken : Bool) (target next : Word) (s : State) : Prop :=
  Completes i s (JumpedTo (if taken then target else next) s)

/-- The rule of a call (R161, R180): not taken, PC moves past the instruction and nothing else changes, whatever SP is; taken with SP at 0xC000 or 0xC001, StackOverflow; taken with any other legal SP, the return address `ret` is pushed and PC is the target. -/
def CallRule (i : Instr) (taken : Bool) (target ret : Word) (s : State) : Prop :=
  (taken = false → Completes i s (JumpedTo ret s)) ∧
  (taken = true → s.sp = 0xC000#16 ∨ s.sp = 0xC001#16 → Completes i s (FaultTaken .stackOverflow s)) ∧
  (taken = true → SpInRange s.sp.toNat → s.sp ≠ 0xC000#16 → s.sp ≠ 0xC001#16 → Completes i s (CalledTo target ret s))

/-- The rule of a return (R171): not taken, PC moves past the instruction and nothing else changes, whatever SP is; taken with SP at 0xDFFF or 0xE000, StackUnderflow; taken with any other legal SP, PC is popped. -/
def ReturnRule (i : Instr) (taken : Bool) (s : State) : Prop :=
  (taken = false → Completes i s (JumpedTo (s.pc + 1#16) s)) ∧
  (taken = true → s.sp = 0xDFFF#16 ∨ s.sp = 0xE000#16 → Completes i s (FaultTaken .stackUnderflow s)) ∧
  (taken = true → SpInRange s.sp.toNat → s.sp ≠ 0xDFFF#16 → s.sp ≠ 0xE000#16 → Completes i s (Returned s))

/-- The bytes, read as the decoder reads them, begin with this instruction, and the rest follows it. -/
def DecodesAs (bytes : List Byte) (i : Instr) : Prop := ∀ rest : List Byte, decode (bytes ++ rest) = .instr i rest

end Sys2Proof.Machine
end

