-- ==== Sys2Proof/Certificates/Slice0/Obligations.lean ====
section
/-! DEFINITION. The statements about the machine. Each names the rule of the spec it formalises; the words they use (`Completes`, `JumpedTo`, `CallRule`, ...) are defined in Sys2Proof/Safety.lean. -/

open Sys2Proof Sys2Proof.Machine

/-! ### Reset and the state -/

/-- R35: every piece of state has its stated value after reset. -/
def Obligations.ResetLeavesTheStatedValues : Prop := HasResetValues State.reset

/-- R270: Reset succeeds from any state and leaves the reset values; every other operation of the host, and every step of the core, leaves a stopped core stopped with its fault record. -/
def Obligations.OnlyResetLeavesHaltedOrFaulted : Prop :=
  (∀ s : State, ∃ t, hostStep .reset s = (.done, t) ∧ HasResetValues t) ∧
  (∀ (op : HostOp) (s : State), op ≠ .reset → s.runState ≠ .running → SameControl s (hostStep op s).2) ∧
  (∀ s : State, s.runState ≠ .running → step s = .next s)

/-- R24: HL is H x 256 + L of the current registers; the host's write of HL writes those two registers and nothing else. -/
def Obligations.HlIsAViewOfHAndL : Prop :=
  (∀ s : State, s.hl.toNat = (s.reg .h).toNat * 256 + (s.reg .l).toNat) ∧
  (∀ (s : State) (v : Nat), ∃ t, hostStep (.setHl v) s = (.done, t) ∧
    (t.reg .h).toNat = v / 256 % 256 ∧ (t.reg .l).toNat = v % 256 ∧ t.hl.toNat = v % 65536 ∧
    (∀ r : Reg8, r ≠ .h → r ≠ .l → t.reg r = s.reg r) ∧
    t.pc = s.pc ∧ t.sp = s.sp ∧ t.flags = s.flags ∧ SameControl s t ∧ SameMem s t)

/-- R30: the byte view of the flags is Z 2^7 + N 2^6 + H 2^5 + C 2^4, and its low four bits are zero (the spec's general knowledge, log entry 18). -/
def Obligations.FlagByteHasTheStatedBits : Prop :=
  ∀ f : Flags, f.byte.toNat = 128 * f.z.toNat + 64 * f.n.toNat + 32 * f.h.toNat + 16 * f.c.toNat

/-- The sparse list loses nothing (R50, log entry 5): two memories in canonical form that read the same at every address are equal data. -/
def Obligations.CanonicalMemoriesAgreeOnlyIfEqual : Prop :=
  ∀ m n : Memory, Memory.wf m → Memory.wf n → (∀ a : Nat, a < 65536 → Memory.read m a = Memory.read n a) → m = n

/-! ### Encoding -/

/-- Decoding what the encoder writes gives the instruction back and leaves what follows it. -/
def Obligations.DecodeOfEncodeIsTheInstruction : Prop :=
  ∀ (i : Instr) (rest : List Byte), i.wf = true → decode (encode i ++ rest) = .instr i rest

/-- Whatever the decoder reads is a well-formed instruction, and the bytes it read are that instruction's encoding: no word has a second meaning and no bit is dropped. -/
def Obligations.EncodeOfDecodeIsTheBytes : Prop :=
  ∀ (bytes : List Byte) (i : Instr) (rest : List Byte),
    decode bytes = .instr i rest → i.wf = true ∧ bytes = encode i ++ rest

/-- R104: a byte is one of the 37 of R100 or an unknown opcode, whatever follows it; there are 37. -/
def Obligations.EveryByteIsListedOrUnknown : Prop :=
  listedOpcodes.length = 37 ∧ listedOpcodes.Nodup ∧
  ∀ (op : Byte) (rest : List Byte), decode (op :: rest) = .unknownOpcode op ↔ op ∉ listedOpcodes

/-- Words written out from R100, one of each family at least, decode to the instructions they stand for. -/
def Obligations.WrittenOutWordsDecode : Prop :=
  DecodesAs [0b00010110#8, 0b00000101#8] (.ldD 0x05#8) ∧ DecodesAs [0b00110110#8, 0b00010001#8] (.ldHL 0x11#8) ∧
  DecodesAs [0b11000011#8, 0b00000010#8, 0b00000001#8] (.jp 0x0102#16) ∧
  DecodesAs [0b11011010#8, 0b00010000#8, 0b00000010#8] (.jpC 0x0210#16) ∧
  DecodesAs [0b00011000#8, 0b00001010#8] (.jr 10) ∧ DecodesAs [0b00111000#8, 0b11110000#8] (.jrC (-16)) ∧
  DecodesAs [0b11001101#8, 0b00010000#8, 0b00000000#8] (.call 0x0010#16) ∧
  DecodesAs [0b11000100#8, 0b00000000#8, 0b00000001#8] (.callNZ 0x0100#16) ∧
  DecodesAs [0b11001001#8] .ret ∧ DecodesAs [0b11010000#8] .retNC ∧
  DecodesAs [0b11001111#8] .rst08 ∧ DecodesAs [0b11111111#8] .rst38 ∧ DecodesAs [0b01110110#8] .halt

/-- R97: the field rrr of the pattern `00 rrr 110` selects B, C, D, E, H, L, the byte at HL, A. -/
def Obligations.RegisterFieldSelectsTheDestination : Prop :=
  ∀ n : Byte,
    DecodesAs [0b00#2 ++ 0b000#3 ++ 0b110#3, n] (.ldB n) ∧ DecodesAs [0b00#2 ++ 0b001#3 ++ 0b110#3, n] (.ldC n) ∧
    DecodesAs [0b00#2 ++ 0b010#3 ++ 0b110#3, n] (.ldD n) ∧ DecodesAs [0b00#2 ++ 0b011#3 ++ 0b110#3, n] (.ldE n) ∧
    DecodesAs [0b00#2 ++ 0b100#3 ++ 0b110#3, n] (.ldH n) ∧ DecodesAs [0b00#2 ++ 0b101#3 ++ 0b110#3, n] (.ldL n) ∧
    DecodesAs [0b00#2 ++ 0b110#3 ++ 0b110#3, n] (.ldHL n) ∧ DecodesAs [0b00#2 ++ 0b111#3 ++ 0b110#3, n] (.ldA n)

/-- R98: the field cc of the patterns `001 cc 000`, `110 cc 000`, `110 cc 010` and `110 cc 100` selects NZ, Z, NC, C. -/
def Obligations.ConditionFieldSelectsTheCondition : Prop :=
  ∀ b1 b2 : Byte,
    (DecodesAs [0b001#3 ++ 0b00#2 ++ 0b000#3, b1] (.jrNZ (disp b1)) ∧ DecodesAs [0b001#3 ++ 0b01#2 ++ 0b000#3, b1] (.jrZ (disp b1)) ∧
      DecodesAs [0b001#3 ++ 0b10#2 ++ 0b000#3, b1] (.jrNC (disp b1)) ∧ DecodesAs [0b001#3 ++ 0b11#2 ++ 0b000#3, b1] (.jrC (disp b1))) ∧
    (DecodesAs [0b110#3 ++ 0b00#2 ++ 0b000#3] .retNZ ∧ DecodesAs [0b110#3 ++ 0b01#2 ++ 0b000#3] .retZ ∧
      DecodesAs [0b110#3 ++ 0b10#2 ++ 0b000#3] .retNC ∧ DecodesAs [0b110#3 ++ 0b11#2 ++ 0b000#3] .retC) ∧
    (DecodesAs [0b110#3 ++ 0b00#2 ++ 0b010#3, b1, b2] (.jpNZ (imm16 b1 b2)) ∧ DecodesAs [0b110#3 ++ 0b01#2 ++ 0b010#3, b1, b2] (.jpZ (imm16 b1 b2)) ∧
      DecodesAs [0b110#3 ++ 0b10#2 ++ 0b010#3, b1, b2] (.jpNC (imm16 b1 b2)) ∧ DecodesAs [0b110#3 ++ 0b11#2 ++ 0b010#3, b1, b2] (.jpC (imm16 b1 b2))) ∧
    (DecodesAs [0b110#3 ++ 0b00#2 ++ 0b100#3, b1, b2] (.callNZ (imm16 b1 b2)) ∧ DecodesAs [0b110#3 ++ 0b01#2 ++ 0b100#3, b1, b2] (.callZ (imm16 b1 b2)) ∧
      DecodesAs [0b110#3 ++ 0b10#2 ++ 0b100#3, b1, b2] (.callNC (imm16 b1 b2)) ∧ DecodesAs [0b110#3 ++ 0b11#2 ++ 0b100#3, b1, b2] (.callC (imm16 b1 b2)))

/-- R99: for each of the eight values of the field ttt of the pattern `11 ttt 111`, the byte is an RST, and where it pushes it goes to ttt x 8. -/
def Obligations.RestartFieldSelectsTheVector : Prop :=
  ∀ ttt : BitVec 3, ∃ i, DecodesAs [0b11#2 ++ ttt ++ 0b111#3] i ∧
    ∀ s : State, SpInRange s.sp.toNat → s.sp ≠ 0xC000#16 → s.sp ≠ 0xC001#16 →
      Completes i s fun t => t.pc.toNat = ttt.toNat * 8 ∧ t.sp = s.sp - 2#16

/-- R105: the length of an instruction is known from its opcode byte alone, and that many bytes are read. -/
def Obligations.LengthIsKnownFromTheOpcodeByte : Prop :=
  (∀ (bytes : List Byte) (i : Instr) (rest : List Byte), decode bytes = .instr i rest →
    ∃ op tail, bytes = op :: tail ∧ lengthOf op = some i.length ∧ bytes.length = i.length + rest.length ∧
      1 ≤ i.length ∧ i.length ≤ 3) ∧
  ∀ (op : Byte) (tail tail' : List Byte) (i i' : Instr) (rest rest' : List Byte),
    decode (op :: tail) = .instr i rest → decode (op :: tail') = .instr i' rest' → i.length = i'.length

/-- R95 and R96: a 16-bit immediate is its first byte plus 256 times its second; a displacement byte is its two's-complement value. -/
def Obligations.ImmediateBytesHaveTheStatedValues : Prop :=
  ∀ b1 b2 : Byte,
    (∃ nn : Word, DecodesAs [0xC3#8, b1, b2] (.jp nn) ∧ nn.toNat = b1.toNat + b2.toNat * 256) ∧
    ∃ e : Int, DecodesAs [0x18#8, b1] (.jr e) ∧ e = if b1.toNat < 128 then (b1.toNat : Int) else (b1.toNat : Int) - 256

/-! ### The instruction cycle -/

/-- When the bytes at PC decode to an instruction, a step of a running core is that instruction's meaning at that state: the step adds nothing, and PC is moved by the meaning itself (R25, R109). -/
def Obligations.StepRunsTheDecodedInstruction : Prop :=
  ∀ (s : State) (i : Instr) (rest : List Byte), s.runState = .running →
    decode [s.memRead s.pc, s.memRead (s.pc + 1#16), s.memRead (s.pc + 2#16)] = .instr i rest → step s = exec i s

/-- When memory holds a well-formed instruction's encoding from PC on, wrapping at the top of memory, a step of a running core runs it, whatever the bytes after it are (R26, R52, R107). -/
def Obligations.StepRunsTheInstructionWhoseBytesStandAtPc : Prop :=
  ∀ (s : State) (i : Instr), s.runState = .running → i.wf = true →
    (∀ (k : Nat) (v : Byte), (encode i)[k]? = some v → s.memRead (s.pc + BitVec.ofNat 16 k) = v) → step s = exec i s

/-- R107: the fetch unit reads PC, then PC + 1 and PC + 2 as far as the instruction's length goes, and the opcode byte alone when it is unknown; no byte twice. -/
def Obligations.FetchReadsExactlyTheInstruction : Prop :=
  ∀ s : State,
    (fetchAddresses s).Nodup ∧
    (∀ (i : Instr) (rest : List Byte),
      decode [s.memRead s.pc, s.memRead (s.pc + 1#16), s.memRead (s.pc + 2#16)] = .instr i rest →
        fetchAddresses s = [s.pc, s.pc + 1#16, s.pc + 2#16].take i.length) ∧
    (s.memRead s.pc ∉ listedOpcodes → fetchAddresses s = [s.pc])

/-- R231: a running core whose opcode byte is in no row of the table takes UnknownOpcode (code 1): nothing changes but the run state and the record, and no operand byte is read. -/
def Obligations.UnknownOpcodeIsTaken : Prop :=
  faultCode .unknownOpcode = 1 ∧
  ∀ s : State, s.runState = .running → s.memRead s.pc ∉ listedOpcodes →
    fetchAddresses s = [s.pc] ∧ ∃ t, step s = .next t ∧ FaultTaken .unknownOpcode s t

/-- R109 and R282: a step always answers a next state. Of a running core it is the meaning of the instruction at PC, or UnknownOpcode; a stopped core is left as it is. The host's Step is that step, and returns Ok, Halted or Faulted with the record, as the core is RUNNING, HALTED or FAULTED after it. -/
def Obligations.StepIsTheInstructionCycle : Prop :=
  ∀ s : State, ∃ t r, step s = .next t ∧
    (∀ (i : Instr) (rest : List Byte), s.runState = .running →
      decode [s.memRead s.pc, s.memRead (s.pc + 1#16), s.memRead (s.pc + 2#16)] = .instr i rest → exec i s = .next t) ∧
    (s.runState = .running → s.memRead s.pc ∉ listedOpcodes → FaultTaken .unknownOpcode s t) ∧
    (s.runState ≠ .running → t = s) ∧
    hostStep .step s = (.stepped r, t) ∧
    (r = .ok ↔ t.runState = .running) ∧ (r = .halted ↔ t.runState = .halted) ∧ (r = .faulted t.fault ↔ t.runState = .faulted)

/-- A word that the decoder reads as an instruction, placed where a step fetches, is run by the next step. The word's numbering is that of spec/opcode_table.json and the placing stands for the host's Load (log entry 7: the model's choice). -/
def Obligations.StepRunsThePlacedWord : Prop :=
  ∀ (s : State) (nbits w : Nat) (i : Instr), decodeTableWord nbits w = some i →
    step (s.withFetchWord nbits w) = exec i (s.withFetchWord nbits w)

/-! ### The instructions -/

/-- R201 to R208: `LD r, n` for each of the seven registers, encoding and effect, from every state. -/
def Obligations.LoadImmediateWritesItsRegisterAlone : Prop :=
  ∀ (n : Byte) (s : State),
    (DecodesAs [0x06#8, n] (.ldB n) ∧ LoadRule (.ldB n) .b n s) ∧ (DecodesAs [0x0E#8, n] (.ldC n) ∧ LoadRule (.ldC n) .c n s) ∧
    (DecodesAs [0x16#8, n] (.ldD n) ∧ LoadRule (.ldD n) .d n s) ∧ (DecodesAs [0x1E#8, n] (.ldE n) ∧ LoadRule (.ldE n) .e n s) ∧
    (DecodesAs [0x26#8, n] (.ldH n) ∧ LoadRule (.ldH n) .h n s) ∧ (DecodesAs [0x2E#8, n] (.ldL n) ∧ LoadRule (.ldL n) .l n s) ∧
    (DecodesAs [0x3E#8, n] (.ldA n) ∧ LoadRule (.ldA n) .a n s)

/-- R210: `LD (HL), n` writes n to the byte at HL = R[H]:R[L] and no other byte, at any address, and advances PC by 2; encoding and effect, from every state. -/
def Obligations.LoadImmediateToMemoryWritesOneByte : Prop :=
  ∀ (n : Byte) (s : State), DecodesAs [0x36#8, n] (.ldHL n) ∧
    s.hlTarget.toNat = (s.reg .h).toNat * 256 + (s.reg .l).toNat ∧
    Completes (.ldHL n) s fun t =>
      t.memRead s.hlTarget = n ∧ SameMemExcept [s.hlTarget] s t ∧ t.pc = s.pc + 2#16 ∧ t.sp = s.sp ∧ SameData s t

/-- R141 to R146: `JP nn` and its four conditional forms, encoding and effect, from every state. -/
def Obligations.AbsoluteJumpsWritePcAlone : Prop :=
  ∀ (b1 b2 : Byte) (s : State), ∃ nn : Word, nn.toNat = b1.toNat + b2.toNat * 256 ∧
    (DecodesAs [0xC3#8, b1, b2] (.jp nn) ∧ JumpRule (.jp nn) true nn (s.pc + 3#16) s) ∧
    (DecodesAs [0xC2#8, b1, b2] (.jpNZ nn) ∧ JumpRule (.jpNZ nn) (!s.flags.z) nn (s.pc + 3#16) s) ∧
    (DecodesAs [0xCA#8, b1, b2] (.jpZ nn) ∧ JumpRule (.jpZ nn) s.flags.z nn (s.pc + 3#16) s) ∧
    (DecodesAs [0xD2#8, b1, b2] (.jpNC nn) ∧ JumpRule (.jpNC nn) (!s.flags.c) nn (s.pc + 3#16) s) ∧
    (DecodesAs [0xDA#8, b1, b2] (.jpC nn) ∧ JumpRule (.jpC nn) s.flags.c nn (s.pc + 3#16) s)

/-- R150 to R155: `JR e` and its four conditional forms; the target is PC + 2 + e modulo 65,536 for the signed value e of the displacement byte; encoding and effect, from every state. -/
def Obligations.RelativeJumpsWritePcAlone : Prop :=
  ∀ (b1 : Byte) (s : State), ∃ (e : Int) (target : Word), e = (if b1.toNat < 128 then (b1.toNat : Int) else (b1.toNat : Int) - 256) ∧
    (target.toNat : Int) = ((s.pc.toNat : Int) + 2 + e) % 65536 ∧
    (DecodesAs [0x18#8, b1] (.jr e) ∧ JumpRule (.jr e) true target (s.pc + 2#16) s) ∧
    (DecodesAs [0x20#8, b1] (.jrNZ e) ∧ JumpRule (.jrNZ e) (!s.flags.z) target (s.pc + 2#16) s) ∧
    (DecodesAs [0x28#8, b1] (.jrZ e) ∧ JumpRule (.jrZ e) s.flags.z target (s.pc + 2#16) s) ∧
    (DecodesAs [0x30#8, b1] (.jrNC e) ∧ JumpRule (.jrNC e) (!s.flags.c) target (s.pc + 2#16) s) ∧
    (DecodesAs [0x38#8, b1] (.jrC e) ∧ JumpRule (.jrC e) s.flags.c target (s.pc + 2#16) s)

/-- R160 to R165: `CALL nn` and its four conditional forms: the push of PC + 3 high byte first and the jump, StackOverflow when SP is 0xC000 or 0xC001, nothing but the advance when not taken; encoding and effect. -/
def Obligations.CallsPushTheReturnAddressAndJump : Prop :=
  ∀ (b1 b2 : Byte) (s : State), ∃ nn : Word, nn.toNat = b1.toNat + b2.toNat * 256 ∧
    (DecodesAs [0xCD#8, b1, b2] (.call nn) ∧ CallRule (.call nn) true nn (s.pc + 3#16) s) ∧
    (DecodesAs [0xC4#8, b1, b2] (.callNZ nn) ∧ CallRule (.callNZ nn) (!s.flags.z) nn (s.pc + 3#16) s) ∧
    (DecodesAs [0xCC#8, b1, b2] (.callZ nn) ∧ CallRule (.callZ nn) s.flags.z nn (s.pc + 3#16) s) ∧
    (DecodesAs [0xD4#8, b1, b2] (.callNC nn) ∧ CallRule (.callNC nn) (!s.flags.c) nn (s.pc + 3#16) s) ∧
    (DecodesAs [0xDC#8, b1, b2] (.callC nn) ∧ CallRule (.callC nn) s.flags.c nn (s.pc + 3#16) s)

/-- R170 to R175: `RET` and its four conditional forms: PC popped low byte first, StackUnderflow when SP is 0xDFFF or 0xE000, nothing but the advance when not taken; encoding and effect. -/
def Obligations.ReturnsPopPc : Prop :=
  ∀ s : State,
    (DecodesAs [0xC9#8] .ret ∧ ReturnRule .ret true s) ∧
    (DecodesAs [0xC0#8] .retNZ ∧ ReturnRule .retNZ (!s.flags.z) s) ∧
    (DecodesAs [0xC8#8] .retZ ∧ ReturnRule .retZ s.flags.z s) ∧
    (DecodesAs [0xD0#8] .retNC ∧ ReturnRule .retNC (!s.flags.c) s) ∧
    (DecodesAs [0xD8#8] .retC ∧ ReturnRule .retC s.flags.c s)

/-- R180 to R188: the eight restarts push PC + 1 and jump to their vectors, or take StackOverflow; encoding and effect. -/
def Obligations.RestartsPushAndJumpToTheirVectors : Prop :=
  ∀ s : State,
    (DecodesAs [0xC7#8] .rst00 ∧ CallRule .rst00 true 0x0000#16 (s.pc + 1#16) s) ∧
    (DecodesAs [0xCF#8] .rst08 ∧ CallRule .rst08 true 0x0008#16 (s.pc + 1#16) s) ∧
    (DecodesAs [0xD7#8] .rst10 ∧ CallRule .rst10 true 0x0010#16 (s.pc + 1#16) s) ∧
    (DecodesAs [0xDF#8] .rst18 ∧ CallRule .rst18 true 0x0018#16 (s.pc + 1#16) s) ∧
    (DecodesAs [0xE7#8] .rst20 ∧ CallRule .rst20 true 0x0020#16 (s.pc + 1#16) s) ∧
    (DecodesAs [0xEF#8] .rst28 ∧ CallRule .rst28 true 0x0028#16 (s.pc + 1#16) s) ∧
    (DecodesAs [0xF7#8] .rst30 ∧ CallRule .rst30 true 0x0030#16 (s.pc + 1#16) s) ∧
    (DecodesAs [0xFF#8] .rst38 ∧ CallRule .rst38 true 0x0038#16 (s.pc + 1#16) s)

/-- R220: `HALT` advances PC by 1, makes the run state HALTED and changes nothing else; from then on a step changes nothing; encoding and effect, from every state. -/
def Obligations.HaltStopsTheCore : Prop :=
  DecodesAs [0x76#8] .halt ∧
  ∀ s : State, Completes .halt s fun t =>
    t.pc = s.pc + 1#16 ∧ t.runState = .halted ∧ t.fault = s.fault ∧ t.sp = s.sp ∧ t.flags = s.flags ∧
    SameRegs s t ∧ SameMem s t ∧ step t = .next t ∧ ∀ budget : Nat, hostStep (.run budget) t = (.ran .halted, t)

/-! ### The stack engine -/

/-- R76: for either byte order, a push that succeeds followed by a pop gives the value back and SP its old value; between them SP is two lower. -/
def Obligations.PopAfterPushGivesTheValueBack : Prop :=
  ∀ (order : StackByteOrder) (v : Word) (s p : State), SpInRange s.sp.toNat → push16With order v s = some p →
    p.sp = s.sp - 2#16 ∧ ∃ q, pop16With order p = some (v, q) ∧ q.sp = s.sp ∧ SameMem p q

/-- R75: Push8 is refused at SP = 0xC000 and at no other legal SP; else SP is one lower and the byte there is the value, and nothing else changes. -/
def Obligations.PushOfOneByte : Prop :=
  ∀ (v : Byte) (s : State),
    (s.sp = 0xC000#16 → push8 v s = none) ∧
    (SpInRange s.sp.toNat → s.sp ≠ 0xC000#16 → ∃ p, push8 v s = some p ∧ p.sp = s.sp - 1#16 ∧ p.memRead p.sp = v ∧
      SameMemExcept [s.sp - 1#16] s p ∧ p.pc = s.pc ∧ SameData s p)

/-- The first sentence of R77, for either byte order: n successful pushes lower SP by 2n, and n pops give the values back, the last pushed first, and SP its old value. -/
def Obligations.StackDepthAccounting : Prop :=
  ∀ (order : StackByteOrder) (values : List Word) (s p : State), SpInRange s.sp.toNat → pushAll order values s = some p →
    (p.sp.toNat : Int) = (s.sp.toNat : Int) - 2 * (values.length : Int) ∧
    ∃ q, popAll order values.length p = some (values.reverse, q) ∧ q.sp = s.sp ∧ SameMem p q

/-- The capacity R77 derives: from an empty stack exactly the sequences of at most 4,096 pushes succeed, for either byte order. -/
def Obligations.StackHolds4096Values : Prop :=
  ∀ (order : StackByteOrder) (values : List Word) (s : State), s.sp = 0xE000#16 →
    ((∃ p, pushAll order values s = some p) ↔ values.length ≤ 4096)

/-! ### Faults -/

/-- R232: when a step of a running core leaves it FAULTED, the run state and the fault record are all that changed, and the record names a fault, the PC and the byte there. -/
def Obligations.FaultsArePrecise : Prop :=
  ∀ s t : State, s.runState = .running → step s = .next t → t.runState = .faulted →
    ∃ kind, kind ≠ .none ∧ FaultTaken kind s t ∧ hostStep .step s = (.stepped (.faulted t.fault), t)

/-- R230: the three faults, their codes, and exactly when a step of a running core with a legal SP raises each. -/
def Obligations.ExactlyThreeFaultsWithTheStatedCauses : Prop :=
  (faultCode .unknownOpcode = 1 ∧ faultCode .stackOverflow = 2 ∧ faultCode .stackUnderflow = 3) ∧
  ∀ s t : State, s.Inv → s.runState = .running → step s = .next t →
    (t.fault.kind = .unknownOpcode ↔ s.memRead s.pc ∉ listedOpcodes) ∧
    (t.fault.kind = .stackOverflow ↔ PushesNow (s.memRead s.pc) s.flags ∧ (s.sp = 0xC000#16 ∨ s.sp = 0xC001#16)) ∧
    (t.fault.kind = .stackUnderflow ↔ PopsNow (s.memRead s.pc) s.flags ∧ (s.sp = 0xDFFF#16 ∨ s.sp = 0xE000#16)) ∧
    (t.runState = .faulted ↔ t.fault.kind ≠ .none)

/-! ### The whole machine -/

/-- The reset state meets the invariant. -/
def Obligations.ResetMeetsTheInvariant : Prop := State.reset.Inv ∧ State.reset.RecordsStop

/-- R27, R32, R36: every step keeps the invariant: SP within 0xC000..0xE000, the fault record (0, 0, 0) except in FAULTED, memory canonical. -/
def Obligations.StepKeepsTheInvariant : Prop :=
  ∀ s t : State, s.Inv → step s = .next t → t.Inv

/-- Every operation of the host, Run and Load among them, keeps the invariant, and so does any sequence of them. -/
def Obligations.HostOperationsKeepTheInvariant : Prop :=
  (∀ (op : HostOp) (s : State), s.Inv → (hostStep op s).2.Inv) ∧
  ∀ (ops : List HostOp) (s : State), s.Inv → (hostSteps ops s).2.Inv

/-- R32: in FAULTED the record holds the PC of the instruction that failed and the byte there; every step keeps this. -/
def Obligations.StepKeepsTheFaultRecordTrue : Prop :=
  ∀ s t : State, s.RecordsStop → step s = .next t → t.RecordsStop

/-- No step writes a flag (R29). -/
def Obligations.NoStepWritesAFlag : Prop := ∀ s t : State, step s = .next t → t.flags = s.flags

/-- SP changes only by 2, up or down, so its parity stays (R27, the clause the spec derives). -/
def Obligations.SpMovesByTwoOrNotAtAll : Prop :=
  ∀ s t : State, step s = .next t →
    (t.sp = s.sp ∨ t.sp = s.sp - 2#16 ∨ t.sp = s.sp + 2#16) ∧ t.sp.toNat % 2 = s.sp.toNat % 2

/-- A register changes only when a running core executes its own `LD r, n`, and then it takes the operand byte (R22). -/
def Obligations.RegistersChangeOnlyByTheirLoads : Prop :=
  ∀ (s t : State) (r : Reg8), step s = .next t → t.reg r ≠ s.reg r →
    s.runState = .running ∧ s.memRead s.pc = loadOpcode r ∧ t.reg r = s.memRead (s.pc + 1#16)

/-- A byte of memory changes only when a running core executes `LD (HL), n` at HL, or pushes a return address and the byte is one of the two below SP (R54, R70). -/
def Obligations.MemoryChangesOnlyByStoresAndPushes : Prop :=
  ∀ (s t : State) (x : Word), step s = .next t → t.memRead x ≠ s.memRead x →
    s.runState = .running ∧
    ((s.memRead s.pc = 0x36#8 ∧ x = s.hlTarget ∧ t.memRead x = s.memRead (s.pc + 1#16)) ∨
      (PushesNow (s.memRead s.pc) s.flags ∧ (x = s.sp - 1#16 ∨ x = s.sp - 2#16)))

/-- A, B, C, D, E and the flags N and H are read by no instruction (R22, R29): two states that differ only in them step to states that agree on everything else. -/
def Obligations.UnreadRegistersAndFlagsDoNotInterfere : Prop :=
  ∀ (s t : State) (a b c d e : Byte) (n h : Bool), step s = .next t →
    ∃ t', step { s with a := a, b := b, c := c, d := d, e := e, flags := { s.flags with n := n, h := h } } = .next t' ∧
      t'.pc = t.pc ∧ t'.sp = t.sp ∧ t'.h = t.h ∧ t'.l = t.l ∧ t'.flags.z = t.flags.z ∧ t'.flags.c = t.flags.c ∧
      t'.mem = t.mem ∧ t'.runState = t.runState ∧ t'.fault = t.fault

/-- The symmetry of R190: a CALL, or an RST, that does not fault, followed at its target by a RET, comes back to the address after the caller with the old SP, registers and flags. -/
def Obligations.ReturnComesBackFromACall : Prop :=
  ∀ s t u : State, SpInRange s.sp.toNat → s.runState = .running → step s = .next t → t.runState = .running →
    t.memRead t.pc = 0xC9#8 → step t = .next u →
    (s.memRead s.pc = 0xCD#8 → u.pc = s.pc + 3#16 ∧ u.sp = s.sp ∧ SameData s u) ∧
    (s.memRead s.pc ∈ [0xC7#8, 0xCF#8, 0xD7#8, 0xDF#8, 0xE7#8, 0xEF#8, 0xF7#8, 0xFF#8] →
      u.pc = s.pc + 1#16 ∧ u.sp = s.sp ∧ SameData s u)

/-- The symmetry of R190 for the conditional call: a taken `CALL cc, nn` that does not fault, followed at its target by a RET, comes back to the address after the caller with the old SP, registers and flags. -/
def Obligations.ReturnComesBackFromATakenConditionalCall : Prop :=
  ∀ s t u : State, SpInRange s.sp.toNat → s.runState = .running → step s = .next t → t.runState = .running →
    t.memRead t.pc = 0xC9#8 → step t = .next u →
    (s.memRead s.pc = 0xC4#8 ∧ s.flags.z = false) ∨ (s.memRead s.pc = 0xCC#8 ∧ s.flags.z = true) ∨
      (s.memRead s.pc = 0xD4#8 ∧ s.flags.c = false) ∨ (s.memRead s.pc = 0xDC#8 ∧ s.flags.c = true) →
    u.pc = s.pc + 3#16 ∧ u.sp = s.sp ∧ SameData s u

/-- A store is seen by the next fetch and not by the storing instruction (R66, R291): `LD (HL), n` at PC stores the operand byte that stood there before, even over its own bytes, and the next fetch at PC + 2 reads the stored byte when HL is there. -/
def Obligations.StoresAreSeenByTheNextFetch : Prop :=
  ∀ s t : State, s.runState = .running → s.memRead s.pc = 0x36#8 → step s = .next t →
    t.pc = s.pc + 2#16 ∧ t.memRead s.hlTarget = s.memRead (s.pc + 1#16) ∧
    (s.hlTarget = s.pc + 2#16 → (fetchBytes t).head? = some (s.memRead (s.pc + 1#16)))

/-! ### The host interface -/

/-- R272: Load copies the bytes to base and up and changes nothing else when base + length is at most 32,768, and otherwise answers ProgramTooLarge and changes nothing. -/
def Obligations.LoadCopiesTheImageOrRefuses : Prop :=
  ∀ (bytes : List Byte) (base : Nat) (s : State),
    (base + bytes.length > 32768 → hostStep (.load bytes base) s = (.loaded .programTooLarge, s)) ∧
    (base + bytes.length ≤ 32768 → ∃ t, hostStep (.load bytes base) s = (.loaded .ok, t) ∧
      (∀ (i : Nat) (v : Byte), bytes[i]? = some v → t.memRead (BitVec.ofNat 16 (base + i)) = v) ∧
      (∀ x : Word, x.toNat < base ∨ base + bytes.length ≤ x.toNat → t.memRead x = s.memRead x) ∧
      t.pc = s.pc ∧ t.sp = s.sp ∧ SameData s t)

/-- R281: the setters write one register, PC, SP or flag, or H and L together as HL, reduced to its width, and nothing else; SetSP is refused outside 0xC000..0xE000. -/
def Obligations.SettersWriteOneThing : Prop :=
  ∀ s : State,
    (∀ (r : Reg8) (v : Nat), ∃ t, hostStep (.setReg r v) s = (.done, t) ∧ (t.reg r).toNat = v % 256 ∧ SameRegsExcept r s t ∧
      t.pc = s.pc ∧ t.sp = s.sp ∧ t.flags = s.flags ∧ SameControl s t ∧ SameMem s t) ∧
    (∀ v : Nat, ∃ t, hostStep (.setHl v) s = (.done, t) ∧ (t.reg .h).toNat = v / 256 % 256 ∧ (t.reg .l).toNat = v % 256 ∧
      (∀ r : Reg8, r ≠ .h → r ≠ .l → t.reg r = s.reg r) ∧
      t.pc = s.pc ∧ t.sp = s.sp ∧ t.flags = s.flags ∧ SameControl s t ∧ SameMem s t) ∧
    (∀ v : Nat, ∃ t, hostStep (.setPc v) s = (.done, t) ∧ t.pc.toNat = v % 65536 ∧ t.sp = s.sp ∧ SameData s t ∧ SameMem s t) ∧
    (∀ v : Nat, 0xC000 ≤ v → v ≤ 0xE000 → ∃ t, hostStep (.setSp v) s = (.done, t) ∧ t.sp.toNat = v ∧ t.pc = s.pc ∧
      SameData s t ∧ SameMem s t) ∧
    (∀ v : Nat, v < 0xC000 ∨ 0xE000 < v → hostStep (.setSp v) s = (.refused, s)) ∧
    (∀ (name : FlagName) (v : Bool), ∃ t, hostStep (.setFlag name v) s = (.done, t) ∧ t.flags.get name = v ∧
      (∀ other, other ≠ name → t.flags.get other = s.flags.get other) ∧
      t.pc = s.pc ∧ t.sp = s.sp ∧ SameRegs s t ∧ SameControl s t ∧ SameMem s t)

/-- R280: the accessors answer what the state holds, a memory address reduced modulo 65,536, and change nothing. -/
def Obligations.AccessorsReadAndChangeNothing : Prop :=
  ∀ s : State,
    (∀ r : Reg8, hostStep (.readReg r) s = (.byte (s.reg r), s)) ∧
    (∃ v : Word, hostStep .readHl s = (.word v, s) ∧ v.toNat = (s.reg .h).toNat * 256 + (s.reg .l).toNat) ∧
    hostStep .readPc s = (.word s.pc, s) ∧ hostStep .readSp s = (.word s.sp, s) ∧
    (∀ name : FlagName, hostStep (.readFlag name) s = (.flag (s.flags.get name), s)) ∧
    (∀ a : Nat, hostStep (.readMem a) s = (.byte (Memory.read s.mem (a % 65536)), s)) ∧
    hostStep .readRunState s = (.runState s.runState, s) ∧ hostStep .readFault s = (.fault s.fault, s)

/-- R283: Run(budget) takes steps until the core stops or the budget is spent, a step that stops it counting; it returns Halted, the fault, or BudgetExhausted as the core is HALTED, FAULTED or still RUNNING. -/
def Obligations.RunStopsAtAHaltAFaultOrTheBudget : Prop :=
  ∀ (budget : Nat) (s : State), ∃ t r k, hostStep (.run budget) s = (.ran r, t) ∧
    k ≤ budget ∧ stepState^[k] s = t ∧ (∀ j < k, (stepState^[j] s).runState = .running) ∧
    ((r = .halted ∧ t.runState = .halted) ∨ (r = .faulted t.fault ∧ t.runState = .faulted) ∨
      (r = .budgetExhausted ∧ t.runState = .running ∧ k = budget))

/-- A Run that exhausts its budget is continued by a later Run as if the budgets had been one (R283); one that stopped is not changed by it. -/
def Obligations.RunsComposeOverBudgets : Prop :=
  ∀ (m n : Nat) (s : State), run (m + n) s = run n (run m s).2 ∧
    ((run m s).1 ≠ .budgetExhausted → run (m + n) s = run m s)

/-! ### The assembler -/

/-- R114: the operands of `RST n` are the eight multiples of 8 up to 0x38; n encodes as the byte 0xC7 + n, whose field ttt is n / 8; no other n is an instruction. -/
def Obligations.RestartOperandsAreTheEightVectors : Prop :=
  ∀ n : Nat,
    (n ∈ [0x00, 0x08, 0x10, 0x18, 0x20, 0x28, 0x30, 0x38] →
      ∃ i op, rstOfOperand n = some i ∧ encode i = [op] ∧ (rstField op).toNat = n / 8 ∧ op.toNat = 0xC7 + n) ∧
    (n ∉ [0x00, 0x08, 0x10, 0x18, 0x20, 0x28, 0x30, 0x38] → rstOfOperand n = none)

/-- A relative jump written with a target address reaches it: the displacement of R115, modulo 65,536, when there is one, takes a JR or a taken JR cc at that address to that target; and the displacement written for the target that a JR reaches is its own, so that there is none only where no JR reaches the target. -/
def Obligations.WrittenTargetOfARelativeJumpIsReached : Prop :=
  ∀ s : State,
    (∀ (target : Word) (e : Int), dispToTarget s.pc target = some e →
      ((Instr.jr e).wf = true ∧ JumpRule (.jr e) true target (s.pc + 2#16) s) ∧
      ((Instr.jrNZ e).wf = true ∧ JumpRule (.jrNZ e) (!s.flags.z) target (s.pc + 2#16) s) ∧
      ((Instr.jrZ e).wf = true ∧ JumpRule (.jrZ e) s.flags.z target (s.pc + 2#16) s) ∧
      ((Instr.jrNC e).wf = true ∧ JumpRule (.jrNC e) (!s.flags.c) target (s.pc + 2#16) s) ∧
      ((Instr.jrC e).wf = true ∧ JumpRule (.jrC e) s.flags.c target (s.pc + 2#16) s)) ∧
    (∀ e : Int, (Instr.jr e).wf = true → Completes (.jr e) s fun t => dispToTarget s.pc t.pc = some e)
end

