-- ==== Sys2Proof/Laws/Assembler.lean ====
section
/-! SUPPORT. What the displacement written for a target is. -/

namespace Sys2Proof.Machine

/-- The displacement written for a target is the one displacement in range that leads from the address after the JR to it, modulo 65,536 (R115, R7). -/
theorem dispToTarget_eq_some_iff {addr target : Word} {e : Int} :
    dispToTarget addr target = some e ↔ DispInRange e ∧ addr + 2#16 + BitVec.ofInt 16 e = target := by
  have back : DispInRange e → (BitVec.ofInt 16 e).toInt = e := fun h => by
    rw [BitVec.toInt_ofInt]; exact Int.bmod_eq_of_le (by omega) (by omega)
  simp only [dispToTarget, Option.ite_none_right_eq_some, Option.some.injEq]
  constructor
  · rintro ⟨h, rfl⟩
    exact ⟨h, by rw [BitVec.ofInt_toInt]; bv_omega⟩
  · rintro ⟨h, rfl⟩
    rw [show addr + 2#16 + BitVec.ofInt 16 e - (addr + 2#16) = BitVec.ofInt 16 e by bv_omega, back h]
    exact ⟨h, rfl⟩

end Sys2Proof.Machine
end

