-- ==== Sys2Proof/Laws/Decode.lean ====
section
/-! SUPPORT. The laws of the byte helpers and of the opcode table. -/

namespace Sys2Proof

/-- The value of an immediate is low + 256 x high (R95). -/
theorem imm16_toNat (b1 b2 : Byte) : (imm16 b1 b2).toNat = b1.toNat + 256 * b2.toNat := by
  have h1 := b1.isLt
  have h2 := b2.isLt
  simp only [imm16, BitVec.toNat_add, BitVec.toNat_shiftLeft, BitVec.toNat_setWidth, Nat.shiftLeft_eq]
  omega

/-- The value of hi:lo is hi x 256 + lo (R7). -/
theorem joinBytes_toNat (hi lo : Byte) : (joinBytes hi lo).toNat = hi.toNat * 256 + lo.toNat := by
  show (hi ++ lo : BitVec (8 + 8)).toNat = _
  rw [BitVec.toNat_append, ← Nat.shiftLeft_add_eq_or_of_lt lo.isLt, Nat.shiftLeft_eq]

/-- The two ways to build a value from bytes agree (R58, R7). -/
theorem imm16_eq_joinBytes (b1 b2 : Byte) : imm16 b1 b2 = joinBytes b2 b1 := by
  apply BitVec.eq_of_toNat_eq
  rw [imm16_toNat, joinBytes_toNat]
  omega

theorem loByte_toNat (v : Word) : (loByte v).toNat = v.toNat % 256 := by
  simp [loByte, BitVec.extractLsb'_toNat]

theorem hiByte_toNat (v : Word) : (hiByte v).toNat = v.toNat / 256 := by
  have h := v.isLt
  simp only [hiByte, BitVec.extractLsb'_toNat, Nat.shiftRight_eq_div_pow]
  omega

/-- Splitting a value into bytes and reading it back gives the value (R58, R71, R73). -/
@[simp] theorem imm16_bytes (v : Word) : imm16 (loByte v) (hiByte v) = v := by
  apply BitVec.eq_of_toNat_eq
  rw [imm16_toNat, loByte_toNat, hiByte_toNat]
  omega

@[simp] theorem joinBytes_bytes (v : Word) : joinBytes (hiByte v) (loByte v) = v := by
  rw [← imm16_eq_joinBytes, imm16_bytes]

@[simp] theorem loByte_imm16 (b1 b2 : Byte) : loByte (imm16 b1 b2) = b1 := by
  apply BitVec.eq_of_toNat_eq
  have h1 := b1.isLt
  rw [loByte_toNat, imm16_toNat]
  omega

@[simp] theorem hiByte_imm16 (b1 b2 : Byte) : hiByte (imm16 b1 b2) = b2 := by
  apply BitVec.eq_of_toNat_eq
  have h1 := b1.isLt
  rw [hiByte_toNat, imm16_toNat]
  omega

/-- A displacement in range survives its byte (R96). -/
theorem disp_dispByte {e : Int} (h : DispInRange e) : disp (dispByte e) = e := by
  obtain ⟨h1, h2⟩ := h
  rw [disp, dispByte, BitVec.toInt_ofInt, Int.bmod_def]
  omega

/-- The byte of a displacement is that displacement's byte. -/
@[simp] theorem dispByte_disp (b : Byte) : dispByte (disp b) = b := by
  simp [disp, dispByte]

/-- Every byte is a displacement in range (R96). -/
theorem disp_inRange (b : Byte) : DispInRange (disp b) :=
  ⟨BitVec.le_toInt b, by have := BitVec.toInt_lt (x := b); show b.toInt ≤ 127; omega⟩

/-- A table entry of a byte that is listed has the length its opcode byte alone gives (R105). -/
theorem lengthOf_of_tableEntry {op b1 b2 : Byte} {i : Instr} (h : tableEntry op b1 b2 = some i) :
    lengthOf op = some i.length := by
  unfold tableEntry at h
  split at h <;> first | (cases h; rfl) | cases h

/-- Whether a byte is listed does not depend on the operand bytes (R108). -/
theorem tableEntry_none {op b1 b2 : Byte} : tableEntry op b1 b2 = none ↔ lengthOf op = none := by
  constructor
  · intro h
    cases e : tableEntry op 0x00#8 0x00#8 with
    | none => simp [lengthOf, descriptor, e]
    | some i =>
      unfold tableEntry at e
      split at e <;> first | cases h | cases e
  · intro h
    cases e : tableEntry op b1 b2 with
    | none => rfl
    | some i => rw [lengthOf_of_tableEntry e] at h; cases h

/-- A one-byte instruction reads no operand byte (R90, R107). -/
theorem tableEntry_length_one {op b1 b2 c1 c2 : Byte} {i : Instr} (h : tableEntry op b1 b2 = some i) (hl : i.length = 1) :
    tableEntry op c1 c2 = some i := by
  unfold tableEntry at h ⊢
  split at h <;> first | (cases h; first | rfl | cases hl) | cases h

/-- A two-byte instruction reads one operand byte (R90, R107). -/
theorem tableEntry_length_two {op b1 b2 c2 : Byte} {i : Instr} (h : tableEntry op b1 b2 = some i) (hl : i.length = 2) :
    tableEntry op b1 c2 = some i := by
  unfold tableEntry at h ⊢
  split at h <;> first | (cases h; first | rfl | cases hl) | cases h

/-- An instruction is 1, 2 or 3 bytes long (R90). -/
theorem Instr.length_cases (i : Instr) : i.length = 1 ∨ i.length = 2 ∨ i.length = 3 := by
  unfold Instr.length
  cases i.format <;> simp [Format.length]

end Sys2Proof
end

