-- ==== Sys2Proof/Laws/State.lean ====
section
/-! SUPPORT. One lemma per field per update of the state, each true by unfolding the update, so that no later proof unfolds a record update. -/

namespace Sys2Proof.Machine

variable (s : State) (r : Reg8) (v : Byte) (w : Word) (k : Nat) (kind : FaultKind)

/-! ### A register write -/

@[simp] theorem State.setReg_pc : (s.setReg r v).pc = s.pc := by cases r <;> rfl
@[simp] theorem State.setReg_sp : (s.setReg r v).sp = s.sp := by cases r <;> rfl
@[simp] theorem State.setReg_flags : (s.setReg r v).flags = s.flags := by cases r <;> rfl
@[simp] theorem State.setReg_mem : (s.setReg r v).mem = s.mem := by cases r <;> rfl
@[simp] theorem State.setReg_runState : (s.setReg r v).runState = s.runState := by cases r <;> rfl
@[simp] theorem State.setReg_fault : (s.setReg r v).fault = s.fault := by cases r <;> rfl

@[simp] theorem State.reg_setReg_same : (s.setReg r v).reg r = v := by cases r <;> rfl

@[simp] theorem State.reg_setReg_other {q : Reg8} (h : q ≠ r) : (s.setReg r v).reg q = s.reg q := by
  cases q <;> cases r <;> first | rfl | exact absurd rfl h

/-! ### A write of PC -/

@[simp] theorem State.setPc_pc : (s.setPc w).pc = w := rfl
@[simp] theorem State.setPc_a : (s.setPc w).a = s.a := rfl
@[simp] theorem State.setPc_b : (s.setPc w).b = s.b := rfl
@[simp] theorem State.setPc_c : (s.setPc w).c = s.c := rfl
@[simp] theorem State.setPc_d : (s.setPc w).d = s.d := rfl
@[simp] theorem State.setPc_e : (s.setPc w).e = s.e := rfl
@[simp] theorem State.setPc_h : (s.setPc w).h = s.h := rfl
@[simp] theorem State.setPc_l : (s.setPc w).l = s.l := rfl
@[simp] theorem State.setPc_sp : (s.setPc w).sp = s.sp := rfl
@[simp] theorem State.setPc_flags : (s.setPc w).flags = s.flags := rfl
@[simp] theorem State.setPc_mem : (s.setPc w).mem = s.mem := rfl
@[simp] theorem State.setPc_runState : (s.setPc w).runState = s.runState := rfl
@[simp] theorem State.setPc_fault : (s.setPc w).fault = s.fault := rfl
@[simp] theorem State.setPc_reg : (s.setPc w).reg r = s.reg r := by cases r <;> rfl

@[simp] theorem State.advance_pc : (s.advance k).pc = s.pcPlus k := rfl
@[simp] theorem State.advance_a : (s.advance k).a = s.a := rfl
@[simp] theorem State.advance_b : (s.advance k).b = s.b := rfl
@[simp] theorem State.advance_c : (s.advance k).c = s.c := rfl
@[simp] theorem State.advance_d : (s.advance k).d = s.d := rfl
@[simp] theorem State.advance_e : (s.advance k).e = s.e := rfl
@[simp] theorem State.advance_h : (s.advance k).h = s.h := rfl
@[simp] theorem State.advance_l : (s.advance k).l = s.l := rfl
@[simp] theorem State.advance_sp : (s.advance k).sp = s.sp := rfl
@[simp] theorem State.advance_flags : (s.advance k).flags = s.flags := rfl
@[simp] theorem State.advance_mem : (s.advance k).mem = s.mem := rfl
@[simp] theorem State.advance_runState : (s.advance k).runState = s.runState := rfl
@[simp] theorem State.advance_fault : (s.advance k).fault = s.fault := rfl
@[simp] theorem State.advance_reg : (s.advance k).reg r = s.reg r := by cases r <;> rfl

/-! ### A memory write -/

@[simp] theorem State.memWrite_a : (s.memWrite w v).a = s.a := rfl
@[simp] theorem State.memWrite_b : (s.memWrite w v).b = s.b := rfl
@[simp] theorem State.memWrite_c : (s.memWrite w v).c = s.c := rfl
@[simp] theorem State.memWrite_d : (s.memWrite w v).d = s.d := rfl
@[simp] theorem State.memWrite_e : (s.memWrite w v).e = s.e := rfl
@[simp] theorem State.memWrite_h : (s.memWrite w v).h = s.h := rfl
@[simp] theorem State.memWrite_l : (s.memWrite w v).l = s.l := rfl
@[simp] theorem State.memWrite_pc : (s.memWrite w v).pc = s.pc := rfl
@[simp] theorem State.memWrite_sp : (s.memWrite w v).sp = s.sp := rfl
@[simp] theorem State.memWrite_flags : (s.memWrite w v).flags = s.flags := rfl
@[simp] theorem State.memWrite_runState : (s.memWrite w v).runState = s.runState := rfl
@[simp] theorem State.memWrite_fault : (s.memWrite w v).fault = s.fault := rfl
@[simp] theorem State.memWrite_mem : (s.memWrite w v).mem = Memory.write s.mem w.toNat v := rfl
@[simp] theorem State.memWrite_reg : (s.memWrite w v).reg r = s.reg r := by cases r <;> rfl

/-! ### Pushing one byte -/

@[simp] theorem State.pushByte_sp : (s.pushByte v).sp = s.sp - 1#16 := rfl
@[simp] theorem State.pushByte_a : (s.pushByte v).a = s.a := rfl
@[simp] theorem State.pushByte_b : (s.pushByte v).b = s.b := rfl
@[simp] theorem State.pushByte_c : (s.pushByte v).c = s.c := rfl
@[simp] theorem State.pushByte_d : (s.pushByte v).d = s.d := rfl
@[simp] theorem State.pushByte_e : (s.pushByte v).e = s.e := rfl
@[simp] theorem State.pushByte_h : (s.pushByte v).h = s.h := rfl
@[simp] theorem State.pushByte_l : (s.pushByte v).l = s.l := rfl
@[simp] theorem State.pushByte_pc : (s.pushByte v).pc = s.pc := rfl
@[simp] theorem State.pushByte_flags : (s.pushByte v).flags = s.flags := rfl
@[simp] theorem State.pushByte_runState : (s.pushByte v).runState = s.runState := rfl
@[simp] theorem State.pushByte_fault : (s.pushByte v).fault = s.fault := rfl
@[simp] theorem State.pushByte_mem : (s.pushByte v).mem = Memory.write s.mem (s.sp - 1#16).toNat v := rfl
@[simp] theorem State.pushByte_reg : (s.pushByte v).reg r = s.reg r := by cases r <;> rfl

/-! ### Taking a fault -/

@[simp] theorem State.raise_runState : (s.raise kind).runState = .faulted := rfl
@[simp] theorem State.raise_fault : (s.raise kind).fault = ⟨kind, s.pc, s.memRead s.pc⟩ := rfl
@[simp] theorem State.raise_a : (s.raise kind).a = s.a := rfl
@[simp] theorem State.raise_b : (s.raise kind).b = s.b := rfl
@[simp] theorem State.raise_c : (s.raise kind).c = s.c := rfl
@[simp] theorem State.raise_d : (s.raise kind).d = s.d := rfl
@[simp] theorem State.raise_e : (s.raise kind).e = s.e := rfl
@[simp] theorem State.raise_h : (s.raise kind).h = s.h := rfl
@[simp] theorem State.raise_l : (s.raise kind).l = s.l := rfl
@[simp] theorem State.raise_pc : (s.raise kind).pc = s.pc := rfl
@[simp] theorem State.raise_sp : (s.raise kind).sp = s.sp := rfl
@[simp] theorem State.raise_flags : (s.raise kind).flags = s.flags := rfl
@[simp] theorem State.raise_mem : (s.raise kind).mem = s.mem := rfl
@[simp] theorem State.raise_reg : (s.raise kind).reg r = s.reg r := by cases r <;> rfl

/-! ### The HL view -/

@[simp] theorem State.setHl_h : (s.setHl w).h = hiByte w := rfl
@[simp] theorem State.setHl_l : (s.setHl w).l = loByte w := rfl
@[simp] theorem State.setHl_a : (s.setHl w).a = s.a := rfl
@[simp] theorem State.setHl_b : (s.setHl w).b = s.b := rfl
@[simp] theorem State.setHl_c : (s.setHl w).c = s.c := rfl
@[simp] theorem State.setHl_d : (s.setHl w).d = s.d := rfl
@[simp] theorem State.setHl_e : (s.setHl w).e = s.e := rfl
@[simp] theorem State.setHl_pc : (s.setHl w).pc = s.pc := rfl
@[simp] theorem State.setHl_sp : (s.setHl w).sp = s.sp := rfl
@[simp] theorem State.setHl_flags : (s.setHl w).flags = s.flags := rfl
@[simp] theorem State.setHl_mem : (s.setHl w).mem = s.mem := rfl
@[simp] theorem State.setHl_runState : (s.setHl w).runState = s.runState := rfl
@[simp] theorem State.setHl_fault : (s.setHl w).fault = s.fault := rfl

/-! ### A read goes by the memory alone -/

theorem State.memRead_congr {s t : State} (h : t.mem = s.mem) (x : Word) : t.memRead x = s.memRead x := by
  unfold State.memRead; rw [h]

@[simp] theorem State.setReg_memRead (x : Word) : (s.setReg r v).memRead x = s.memRead x := State.memRead_congr (by simp) x
@[simp] theorem State.setPc_memRead (x : Word) : (s.setPc w).memRead x = s.memRead x := rfl
@[simp] theorem State.advance_memRead (x : Word) : (s.advance k).memRead x = s.memRead x := rfl
@[simp] theorem State.raise_memRead (x : Word) : (s.raise kind).memRead x = s.memRead x := rfl
@[simp] theorem State.setHl_memRead (x : Word) : (s.setHl w).memRead x = s.memRead x := rfl

end Sys2Proof.Machine
end

