-- ==== Sys2Proof/Laws/Memory.lean ====
section
/-! SUPPORT. The laws of memory as data: a read after a write, a write leaves every other address alone, and every operation keeps the canonical form. -/

namespace Sys2Proof.Machine

/-- Removing an address leaves what every other address reads as. -/
theorem Memory.read_filter_other {x y : Nat} (h : y ≠ x) :
    ∀ m : Memory, Memory.read (m.filter fun cell => cell.1 != x) y = Memory.read m y
  | [] => rfl
  | (k, v) :: rest => by
    have ih := Memory.read_filter_other h rest
    by_cases hk : k = x
    · subst hk
      simp [Memory.read, ih, Ne.symm h]
    · simp [Memory.read, hk, ih]

/-- An address no cell lists reads as the unlisted byte. -/
theorem Memory.read_unlisted {x : Nat} : ∀ {m : Memory}, (∀ cell ∈ m, cell.1 ≠ x) → Memory.read m x = Config.unlistedByte
  | [], _ => rfl
  | (k, v) :: rest, h => by
    have hk : k ≠ x := h (k, v) (by simp)
    have ih := Memory.read_unlisted (m := rest) fun cell hc => h cell (List.mem_cons_of_mem _ hc)
    simp [Memory.read, hk, ih]

/-- What an address reads as once a cell is put into a list that does not list its address. -/
theorem Memory.read_insert {x y : Nat} {v : Byte} :
    ∀ {m : Memory}, (∀ cell ∈ m, cell.1 ≠ x) → Memory.read (Memory.insert m x v) y = if y = x then v else Memory.read m y
  | [], _ => by simp [Memory.insert, Memory.read, eq_comm]
  | (k, w) :: rest, h => by
    have ih := Memory.read_insert (m := rest) (y := y) (v := v) fun cell hc => h cell (List.mem_cons_of_mem _ hc)
    have hk : k ≠ x := h (k, w) (by simp)
    by_cases hlt : x < k
    · simp [Memory.insert, Memory.read, hlt, eq_comm]
    · by_cases hy : k = y
      · subst hy
        simp [Memory.insert, Memory.read, hlt, hk]
      · simp [Memory.insert, Memory.read, hlt, hy, ih]

/-- The one law of a write: its own address reads the byte written, every other address reads as before. -/
theorem Memory.read_write (m : Memory) (x y : Nat) (v : Byte) :
    Memory.read (Memory.write m x v) y = if y = x then v else Memory.read m y := by
  have gone : ∀ cell ∈ m.filter (fun cell => cell.1 != x), cell.1 ≠ x := by
    intro cell hc; simpa using (List.mem_filter.mp hc).2
  unfold Memory.write
  by_cases hv : v = Config.unlistedByte
  · by_cases hy : y = x
    · subst hy; simp [hv, Memory.read_unlisted gone]
    · simp [hv, hy, Memory.read_filter_other hy]
  · by_cases hy : y = x
    · simp [hv, Memory.read_insert gone, hy]
    · simp [hv, Memory.read_insert gone, hy, Memory.read_filter_other hy]

theorem Memory.mem_insert {x : Nat} {v : Byte} {cell : Host.Cell} :
    ∀ {m : Memory}, cell ∈ Memory.insert m x v → cell = (x, v) ∨ cell ∈ m
  | [], h => by simpa [Memory.insert] using h
  | (k, w) :: rest, h => by
    by_cases hlt : x < k
    · simpa [Memory.insert, hlt] using h
    · rcases (by simpa [Memory.insert, hlt] using h : cell = (k, w) ∨ cell ∈ Memory.insert rest x v) with h | h
      · simp [h]
      · rcases Memory.mem_insert h with h | h <;> simp [h]

/-- Putting a cell in its place keeps the addresses rising. -/
theorem Memory.insert_pairwise {x : Nat} {v : Byte} :
    ∀ {m : Memory}, m.Pairwise (fun p q => p.1 < q.1) → (∀ cell ∈ m, cell.1 ≠ x) →
      (Memory.insert m x v).Pairwise (fun p q => p.1 < q.1)
  | [], _, _ => by simp [Memory.insert]
  | (k, w) :: rest, hp, hx => by
    obtain ⟨hk, hrest⟩ := List.pairwise_cons.mp hp
    have hkx : k ≠ x := hx (k, w) (by simp)
    by_cases hlt : x < k
    · rw [Memory.insert, if_pos hlt]
      refine List.pairwise_cons.mpr ⟨fun c hc => ?_, hp⟩
      rcases List.mem_cons.mp hc with h | h
      · subst h; exact hlt
      · exact Nat.lt_trans hlt (hk c h)
    · rw [Memory.insert, if_neg hlt]
      refine List.pairwise_cons.mpr ⟨fun c hc => ?_, Memory.insert_pairwise hrest fun c hc => hx c (by simp [hc])⟩
      rcases Memory.mem_insert hc with h | h
      · subst h; show k < x; omega
      · exact hk c h

/-- A write keeps the canonical form. -/
theorem Memory.write_wf {m : Memory} {x : Nat} {v : Byte} (h : Memory.wf m) (hx : x < Config.memSize) :
    Memory.wf (Memory.write m x v) := by
  obtain ⟨hp, hc⟩ := h
  have hp' := hp.filter fun cell : Host.Cell => cell.1 != x
  have hc' : ∀ cell ∈ m.filter (fun cell => cell.1 != x), cell.1 < Config.memSize ∧ cell.2 ≠ Config.unlistedByte :=
    fun cell hm => hc cell (List.mem_filter.mp hm).1
  have gone : ∀ cell ∈ m.filter (fun cell => cell.1 != x), cell.1 ≠ x := by
    intro cell hm; simpa using (List.mem_filter.mp hm).2
  by_cases hv : v = Config.unlistedByte
  · rw [Memory.write, if_pos hv]
    exact ⟨hp', hc'⟩
  · rw [Memory.write, if_neg hv]
    refine ⟨Memory.insert_pairwise hp' gone, fun cell hm => ?_⟩
    rcases Memory.mem_insert hm with h | h
    · subst h; exact ⟨hx, hv⟩
    · exact hc' cell h

/-- A read after a write, at the level of the machine (R53, R54). -/
theorem State.memRead_memWrite (s : State) (x y : Word) (v : Byte) :
    (s.memWrite x v).memRead y = if y = x then v else s.memRead y := by
  simp only [State.memRead, State.memWrite_mem, Memory.read_write]
  by_cases h : y = x
  · simp [h]
  · rw [if_neg h, if_neg fun e : y.toNat = x.toNat => h (BitVec.eq_of_toNat_eq e)]

@[simp] theorem State.memRead_memWrite_same (s : State) (x : Word) (v : Byte) : (s.memWrite x v).memRead x = v := by
  simp [State.memRead_memWrite]

theorem State.memRead_memWrite_other (s : State) {x y : Word} (v : Byte) (h : y ≠ x) :
    (s.memWrite x v).memRead y = s.memRead y := by
  simp [State.memRead_memWrite, h]

/-- A byte pushed is read at the new SP, every other byte reads as before (R71, R75). -/
theorem State.memRead_pushByte (s : State) (v : Byte) (y : Word) :
    (s.pushByte v).memRead y = if y = s.sp - 1#16 then v else s.memRead y :=
  State.memRead_memWrite { s with sp := s.sp - 1#16 } (s.sp - 1#16) y v

theorem State.memWrite_wf {s : State} (h : Memory.wf s.mem) (x : Word) (v : Byte) : Memory.wf (s.memWrite x v).mem :=
  Memory.write_wf h x.isLt

theorem State.pushByte_wf {s : State} (h : Memory.wf s.mem) (v : Byte) : Memory.wf (s.pushByte v).mem :=
  Memory.write_wf h (s.sp - 1#16).isLt

end Sys2Proof.Machine
end

