-- ==== Sys2Proof/Laws/Stack.lean ====
section
/-! SUPPORT. One lemma for each operation of the stack engine that says everything it can do (R71 to R75). -/

namespace Sys2Proof.Machine

/-- The stack test of a push, on the value of SP (R72). -/
theorem State.pushOverflows_iff (s : State) : s.pushOverflows ↔ s.sp.toNat < 0xC002 := by
  rw [State.pushOverflows, decide_eq_true_iff]
  show (s.sp.toNat : Int) - 2 < ((49152 : Nat) : Int) ↔ _
  omega

/-- The stack test of a pop, on the value of SP (R74). -/
theorem State.popUnderflows_iff (s : State) : s.popUnderflows ↔ 0xDFFE < s.sp.toNat := by
  rw [State.popUnderflows, decide_eq_true_iff]
  show (s.sp.toNat : Int) + 2 > ((57344 : Nat) : Int) ↔ _
  omega

/-- A legal SP refuses a push at 0xC000 and 0xC001 and nowhere else (R72). -/
theorem State.pushOverflows_of_legal {s : State} (h : SpInRange s.sp.toNat) :
    s.pushOverflows ↔ s.sp = 0xC000#16 ∨ s.sp = 0xC001#16 := by
  obtain ⟨h1, h2⟩ : 0xC000 ≤ s.sp.toNat ∧ s.sp.toNat ≤ 0xE000 := h
  rw [State.pushOverflows_iff]
  constructor
  · intro hlt
    rcases (by omega : s.sp.toNat = 0xC000 ∨ s.sp.toNat = 0xC001) with e | e
    · exact .inl (BitVec.eq_of_toNat_eq e)
    · exact .inr (BitVec.eq_of_toNat_eq e)
  · rintro (e | e) <;> rw [e] <;> decide

/-- A legal SP refuses a pop at 0xDFFF and 0xE000 and nowhere else (R74). -/
theorem State.popUnderflows_of_legal {s : State} (h : SpInRange s.sp.toNat) :
    s.popUnderflows ↔ s.sp = 0xDFFF#16 ∨ s.sp = 0xE000#16 := by
  obtain ⟨h1, h2⟩ : 0xC000 ≤ s.sp.toNat ∧ s.sp.toNat ≤ 0xE000 := h
  rw [State.popUnderflows_iff]
  constructor
  · intro hlt
    rcases (by omega : s.sp.toNat = 0xDFFF ∨ s.sp.toNat = 0xE000) with e | e
    · exact .inl (BitVec.eq_of_toNat_eq e)
    · exact .inr (BitVec.eq_of_toNat_eq e)
  · rintro (e | e) <;> rw [e] <;> decide

/-- A push that overflows is refused. -/
theorem push16With_none {order : StackByteOrder} {v : Word} {s : State} :
    push16With order v s = none ↔ s.pushOverflows := by
  by_cases h : s.pushOverflows <;> simp [push16With, h]

/-- Everything a push that succeeds does (R71). -/
theorem push16With_some {order : StackByteOrder} {v : Word} {s t : State} (h : push16With order v s = some t) :
    ¬ s.pushOverflows ∧ t.sp = s.sp - 2#16 ∧ t.pc = s.pc ∧ t.flags = s.flags ∧ t.runState = s.runState ∧
      t.fault = s.fault ∧ (∀ r, t.reg r = s.reg r) ∧ (Memory.wf s.mem → Memory.wf t.mem) ∧
      ∀ x, t.memRead x =
        if x = s.sp - 2#16 then secondPushed order v else if x = s.sp - 1#16 then firstPushed order v else s.memRead x := by
  by_cases ho : s.pushOverflows
  · simp [push16With, ho] at h
  · have e : (s.pushByte (firstPushed order v)).pushByte (secondPushed order v) = t := by
      simpa [push16With, ho] using h
    have sub : s.sp - 1#16 - 1#16 = s.sp - 2#16 := by bv_omega
    subst e
    refine ⟨ho, by simp [sub], rfl, rfl, rfl, rfl, by simp, fun w => State.pushByte_wf (State.pushByte_wf w _) _, fun x => ?_⟩
    simp only [State.memRead_pushByte, State.pushByte_sp, sub]

/-- A pop that underflows is refused. -/
theorem pop16With_none {order : StackByteOrder} {s : State} : pop16With order s = none ↔ s.popUnderflows := by
  by_cases h : s.popUnderflows <;> simp [pop16With, h]

/-- Everything a pop that succeeds does (R73). -/
theorem pop16With_some {order : StackByteOrder} {s t : State} {v : Word} (h : pop16With order s = some (v, t)) :
    ¬ s.popUnderflows ∧ t = { s with sp := s.sp + 2#16 } ∧
      v = match (generalizing := false) order with
        | .highFirst => joinBytes (s.memRead (s.sp + 1#16)) (s.memRead s.sp)
        | .lowFirst => joinBytes (s.memRead s.sp) (s.memRead (s.sp + 1#16)) := by
  by_cases hu : s.popUnderflows
  · simp [pop16With, hu] at h
  · rw [pop16With, if_neg hu] at h
    obtain ⟨rfl, rfl⟩ := Prod.mk.inj (Option.some.inj h)
    exact ⟨hu, rfl, by cases order <;> rfl⟩

/-- Everything Push8 that succeeds does (R75). -/
theorem push8_some {v : Byte} {s t : State} (h : push8 v s = some t) : ¬ s.push8Overflows ∧ t = s.pushByte v := by
  by_cases ho : s.push8Overflows
  · simp [push8, ho] at h
  · exact ⟨ho, by simpa [push8, ho] using h.symm⟩

/-- A successful push leaves a legal SP legal. -/
theorem push16With_sp {order : StackByteOrder} {v : Word} {s t : State} (hs : SpInRange s.sp.toNat)
    (h : push16With order v s = some t) : SpInRange t.sp.toNat := by
  obtain ⟨ho, hsp, -⟩ := push16With_some h
  rw [State.pushOverflows_iff] at ho
  rw [hsp]
  have : (s.sp - 2#16).toNat = s.sp.toNat - 2 := by bv_omega
  have h2 : s.sp.toNat ≤ 0xE000 := hs.2
  exact ⟨by rw [this]; show 0xC000 ≤ _; omega, by rw [this]; show _ ≤ 0xE000; omega⟩

/-- A successful pop leaves a legal SP legal. -/
theorem pop16With_sp {order : StackByteOrder} {v : Word} {s t : State} (hs : SpInRange s.sp.toNat)
    (h : pop16With order s = some (v, t)) : SpInRange t.sp.toNat := by
  obtain ⟨hu, rfl, -⟩ := pop16With_some h
  rw [State.popUnderflows_iff] at hu
  have h1 : 0xC000 ≤ s.sp.toNat := hs.1
  have : (s.sp + 2#16).toNat = s.sp.toNat + 2 := by bv_omega
  exact ⟨by show 0xC000 ≤ (s.sp + 2#16).toNat; omega, by show (s.sp + 2#16).toNat ≤ 0xE000; omega⟩

end Sys2Proof.Machine
end

