-- ==== Sys2Proof/Laws/Exec.lean ====
section
/-! SUPPORT. What an instruction can do, said once: each shared operation's inversion lemma, and `Effect`, the eight shapes of a next state. -/

namespace Sys2Proof.Machine

/-- A call pushes and jumps, or takes StackOverflow. -/
theorem callTo_cases (ret target : Word) (s : State) :
    (∃ p, push16 ret s = some p ∧ callTo ret target s = .next (p.setPc target)) ∨
      (s.pushOverflows ∧ callTo ret target s = .next (s.raise .stackOverflow)) := by
  cases h : push16 ret s with
  | none => exact .inr ⟨push16With_none.mp h, by simp [callTo, h]⟩
  | some p => exact .inl ⟨p, rfl, by simp [callTo, h]⟩

/-- A return pops PC, or takes StackUnderflow. -/
theorem returnPop_cases (s : State) :
    (∃ v p, pop16 s = some (v, p) ∧ returnPop s = .next (p.setPc v)) ∨
      (s.popUnderflows ∧ returnPop s = .next (s.raise .stackUnderflow)) := by
  cases h : pop16 s with
  | none => exact .inr ⟨pop16With_none.mp h, by simp [returnPop, h]⟩
  | some vp => exact .inl ⟨vp.1, vp.2, rfl, by simp [returnPop, h]⟩

/-- What an instruction can do to a state: eight shapes and no other. -/
inductive Effect (s : State) : State → Prop where
  | load (r : Reg8) (n : Byte) : Effect s ((s.setReg r n).advance 2)
  | store (n : Byte) : Effect s ((s.memWrite s.hlTarget n).advance 2)
  | jump (target : Word) : Effect s (s.setPc target)
  | push (ret target : Word) (p : State) (h : push16 ret s = some p) : Effect s (p.setPc target)
  | pop (v : Word) (p : State) (h : pop16 s = some (v, p)) : Effect s (p.setPc v)
  | halt : Effect s { s.advance 1 with runState := .halted }
  | overflow (h : s.pushOverflows) : Effect s (s.raise .stackOverflow)
  | underflow (h : s.popUnderflows) : Effect s (s.raise .stackUnderflow)

theorem jumpIf_effect (cc : Cond) (nn : Word) (s : State) : ∃ t, jumpIf cc nn s = .next t ∧ Effect s t := by
  unfold jumpIf
  split
  · exact ⟨_, rfl, .jump _⟩
  · exact ⟨_, rfl, .jump _⟩

theorem jumpRelIf_effect (cc : Cond) (e : Int) (s : State) : ∃ t, jumpRelIf cc e s = .next t ∧ Effect s t := by
  unfold jumpRelIf
  split
  · exact ⟨_, rfl, .jump _⟩
  · exact ⟨_, rfl, .jump _⟩

theorem callTo_effect (ret target : Word) (s : State) : ∃ t, callTo ret target s = .next t ∧ Effect s t := by
  rcases callTo_cases ret target s with ⟨p, hp, h⟩ | ⟨ho, h⟩
  · exact ⟨_, h, .push _ _ _ hp⟩
  · exact ⟨_, h, .overflow ho⟩

theorem callIf_effect (cc : Cond) (nn : Word) (s : State) : ∃ t, callIf cc nn s = .next t ∧ Effect s t := by
  unfold callIf
  split
  · exact callTo_effect _ _ s
  · exact ⟨_, rfl, .jump _⟩

theorem returnPop_effect (s : State) : ∃ t, returnPop s = .next t ∧ Effect s t := by
  rcases returnPop_cases s with ⟨v, p, hp, h⟩ | ⟨hu, h⟩
  · exact ⟨_, h, .pop _ _ hp⟩
  · exact ⟨_, h, .underflow hu⟩

theorem returnIf_effect (cc : Cond) (s : State) : ∃ t, returnIf cc s = .next t ∧ Effect s t := by
  unfold returnIf
  split
  · exact returnPop_effect s
  · exact ⟨_, rfl, .jump _⟩

/-- Every instruction answers a next state, and it is one of the eight shapes. -/
theorem exec_effect (i : Instr) (s : State) : ∃ t, exec i s = .next t ∧ Effect s t := by
  cases i with
  | ldB n => exact ⟨_, rfl, .load .b n⟩
  | ldC n => exact ⟨_, rfl, .load .c n⟩
  | ldD n => exact ⟨_, rfl, .load .d n⟩
  | ldE n => exact ⟨_, rfl, .load .e n⟩
  | ldH n => exact ⟨_, rfl, .load .h n⟩
  | ldL n => exact ⟨_, rfl, .load .l n⟩
  | ldA n => exact ⟨_, rfl, .load .a n⟩
  | ldHL n => exact ⟨_, rfl, .store n⟩
  | jp nn => exact ⟨_, rfl, .jump nn⟩
  | jpNZ nn => exact jumpIf_effect .nz nn s
  | jpZ nn => exact jumpIf_effect .z nn s
  | jpNC nn => exact jumpIf_effect .nc nn s
  | jpC nn => exact jumpIf_effect .c nn s
  | jr e => exact ⟨_, rfl, .jump (s.relTarget e)⟩
  | jrNZ e => exact jumpRelIf_effect .nz e s
  | jrZ e => exact jumpRelIf_effect .z e s
  | jrNC e => exact jumpRelIf_effect .nc e s
  | jrC e => exact jumpRelIf_effect .c e s
  | call nn => exact callTo_effect s.callReturn nn s
  | callNZ nn => exact callIf_effect .nz nn s
  | callZ nn => exact callIf_effect .z nn s
  | callNC nn => exact callIf_effect .nc nn s
  | callC nn => exact callIf_effect .c nn s
  | ret => exact returnPop_effect s
  | retNZ => exact returnIf_effect .nz s
  | retZ => exact returnIf_effect .z s
  | retNC => exact returnIf_effect .nc s
  | retC => exact returnIf_effect .c s
  | rst00 => exact callTo_effect s.rstReturn (rstTarget 0#3) s
  | rst08 => exact callTo_effect s.rstReturn (rstTarget 1#3) s
  | rst10 => exact callTo_effect s.rstReturn (rstTarget 2#3) s
  | rst18 => exact callTo_effect s.rstReturn (rstTarget 3#3) s
  | rst20 => exact callTo_effect s.rstReturn (rstTarget 4#3) s
  | rst28 => exact callTo_effect s.rstReturn (rstTarget 5#3) s
  | rst30 => exact callTo_effect s.rstReturn (rstTarget 6#3) s
  | rst38 => exact callTo_effect s.rstReturn (rstTarget 7#3) s
  | halt => exact ⟨_, rfl, .halt⟩

/-- If an instruction answers a next state, that state is one of the eight shapes. -/
theorem exec_cases {i : Instr} {s t : State} (h : exec i s = .next t) : Effect s t := by
  obtain ⟨u, hu, he⟩ := exec_effect i s
  rw [hu] at h
  cases h
  exact he

end Sys2Proof.Machine
end

