-- ==== Sys2Proof/Laws/PerInstr.lean ====
section
/-! SUPPORT. Statements made per instruction. The family `Encoded`: an instruction's encoding is as long as its length says, and its opcode byte alone gives its row of the table (R90, R105). -/

namespace Sys2Proof.Laws.Encoded

/-- The encoding has the encoded length, and the table's row for its first byte is the instruction's own. -/
def Statement (i : Instr) : Prop :=
  (encode i).length = i.length ∧ descriptor ((encode i).headD 0x00#8) = some ⟨i.mnemonic, i.format, i.length⟩

theorem ldB (n : Byte) : Statement (.ldB n) := ⟨rfl, rfl⟩
theorem ldC (n : Byte) : Statement (.ldC n) := ⟨rfl, rfl⟩
theorem ldD (n : Byte) : Statement (.ldD n) := ⟨rfl, rfl⟩
theorem ldE (n : Byte) : Statement (.ldE n) := ⟨rfl, rfl⟩
theorem ldH (n : Byte) : Statement (.ldH n) := ⟨rfl, rfl⟩
theorem ldL (n : Byte) : Statement (.ldL n) := ⟨rfl, rfl⟩
theorem ldA (n : Byte) : Statement (.ldA n) := ⟨rfl, rfl⟩
theorem ldHL (n : Byte) : Statement (.ldHL n) := ⟨rfl, rfl⟩
theorem jp (nn : Word) : Statement (.jp nn) := ⟨rfl, rfl⟩
theorem jpNZ (nn : Word) : Statement (.jpNZ nn) := ⟨rfl, rfl⟩
theorem jpZ (nn : Word) : Statement (.jpZ nn) := ⟨rfl, rfl⟩
theorem jpNC (nn : Word) : Statement (.jpNC nn) := ⟨rfl, rfl⟩
theorem jpC (nn : Word) : Statement (.jpC nn) := ⟨rfl, rfl⟩
theorem jr (e : Int) : Statement (.jr e) := ⟨rfl, rfl⟩
theorem jrNZ (e : Int) : Statement (.jrNZ e) := ⟨rfl, rfl⟩
theorem jrZ (e : Int) : Statement (.jrZ e) := ⟨rfl, rfl⟩
theorem jrNC (e : Int) : Statement (.jrNC e) := ⟨rfl, rfl⟩
theorem jrC (e : Int) : Statement (.jrC e) := ⟨rfl, rfl⟩
theorem call (nn : Word) : Statement (.call nn) := ⟨rfl, rfl⟩
theorem callNZ (nn : Word) : Statement (.callNZ nn) := ⟨rfl, rfl⟩
theorem callZ (nn : Word) : Statement (.callZ nn) := ⟨rfl, rfl⟩
theorem callNC (nn : Word) : Statement (.callNC nn) := ⟨rfl, rfl⟩
theorem callC (nn : Word) : Statement (.callC nn) := ⟨rfl, rfl⟩
theorem ret : Statement .ret := ⟨rfl, rfl⟩
theorem retNZ : Statement .retNZ := ⟨rfl, rfl⟩
theorem retZ : Statement .retZ := ⟨rfl, rfl⟩
theorem retNC : Statement .retNC := ⟨rfl, rfl⟩
theorem retC : Statement .retC := ⟨rfl, rfl⟩
theorem rst00 : Statement .rst00 := ⟨rfl, rfl⟩
theorem rst08 : Statement .rst08 := ⟨rfl, rfl⟩
theorem rst10 : Statement .rst10 := ⟨rfl, rfl⟩
theorem rst18 : Statement .rst18 := ⟨rfl, rfl⟩
theorem rst20 : Statement .rst20 := ⟨rfl, rfl⟩
theorem rst28 : Statement .rst28 := ⟨rfl, rfl⟩
theorem rst30 : Statement .rst30 := ⟨rfl, rfl⟩
theorem rst38 : Statement .rst38 := ⟨rfl, rfl⟩
theorem halt : Statement .halt := ⟨rfl, rfl⟩

end Sys2Proof.Laws.Encoded
end

