-- ==== Sys2Proof/Laws/Step.lean ====
section
/-! SUPPORT. What a step can do: the fetched bytes decode as the table's row for them, and a step is that row's instruction, UnknownOpcode, or nothing at all. -/

namespace Sys2Proof.Machine

/-- The table's row for the bytes in memory at PC. -/
def State.entry (s : State) : Option Instr :=
  tableEntry (s.memRead s.pc) (s.memRead (s.pcPlus 1)) (s.memRead (s.pcPlus 2))

@[simp] theorem State.pcPlus_zero (s : State) : s.pcPlus 0 = s.pc := by simp [State.pcPlus]

/-- The fetch unit reads enough bytes for the decoder, and the bytes it does not read do not matter (R105, R107). -/
theorem decode_fetchBytes (s : State) :
    decode (fetchBytes s) =
      match s.entry with
      | some i => .instr i []
      | none => .unknownOpcode (s.memRead s.pc) := by
  cases h : s.entry with
  | none =>
    have hl : lengthOf (s.memRead s.pc) = none := tableEntry_none.mp h
    have hn : tableEntry (s.memRead s.pc) 0x00#8 0x00#8 = none := tableEntry_none.mpr hl
    simp [fetchBytes, fetchAddresses, fetchLength, hl, decode, hn]
  | some i =>
    have hl : lengthOf (s.memRead s.pc) = some i.length := lengthOf_of_tableEntry h
    rcases i.length_cases with e | e | e
    · have hn := tableEntry_length_one (c1 := 0x00#8) (c2 := 0x00#8) h e
      simp [fetchBytes, fetchAddresses, fetchLength, hl, decode, e, hn]
    · have hn := tableEntry_length_two (c2 := 0x00#8) h e
      simp [fetchBytes, fetchAddresses, fetchLength, hl, decode, e, List.range_succ, hn]
    · have hn : tableEntry (s.memRead s.pc) (s.memRead (s.pcPlus 1)) (s.memRead (s.pcPlus 2)) = some i := h
      simp [fetchBytes, fetchAddresses, fetchLength, hl, decode, e, List.range_succ, hn]

/-- A step of a running core, by the table's row at PC. -/
theorem step_running {s : State} (h : s.runState = .running) :
    step s = match s.entry with
      | some i => exec i s
      | none => .next (s.raise .unknownOpcode) := by
  unfold step
  rw [h, decode_fetchBytes]
  cases s.entry <;> rfl

theorem step_halted {s : State} (h : s.runState = .halted) : step s = .next s := by
  unfold step; rw [h]

theorem step_faulted {s : State} (h : s.runState = .faulted) : step s = .next s := by
  unfold step; rw [h]

/-- Everything a step can do: nothing (stopped), take UnknownOpcode, or run the instruction at PC. -/
theorem step_cases {s t : State} (h : step s = .next t) :
    (s.runState ≠ .running ∧ t = s) ∨
      (s.runState = .running ∧ s.entry = none ∧ t = s.raise .unknownOpcode) ∨
      ∃ i, s.runState = .running ∧ s.entry = some i ∧ exec i s = .next t ∧ Effect s t := by
  cases hr : s.runState with
  | halted => rw [step_halted hr] at h; cases h; simp
  | faulted => rw [step_faulted hr] at h; cases h; simp
  | running =>
    rw [step_running hr] at h
    cases he : s.entry with
    | none => rw [he] at h; cases h; simp
    | some i => rw [he] at h; exact .inr (.inr ⟨i, rfl, rfl, h, exec_cases h⟩)

/-- A step always answers a next state. -/
theorem step_answers_next (s : State) : ∃ t, step s = .next t := by
  cases hr : s.runState with
  | halted => exact ⟨s, step_halted hr⟩
  | faulted => exact ⟨s, step_faulted hr⟩
  | running =>
    rw [step_running hr]
    cases s.entry with
    | none => exact ⟨_, rfl⟩
    | some i =>
      obtain ⟨t, h, -⟩ := exec_effect i s
      exact ⟨t, h⟩

/-- The state the host's Step leaves is the one the core's step answers. -/
theorem stepState_of_step {s t : State} (h : step s = .next t) : stepState s = t := by
  unfold stepState; rw [h]

theorem step_eq_stepState (s : State) : step s = .next (stepState s) := by
  obtain ⟨t, h⟩ := step_answers_next s
  rw [stepState_of_step h, h]

/-- Storing bytes leaves everything but memory as it is. -/
theorem storeBytes_frame (bytes : List Byte) (addr : Word) (s : State) :
    (storeBytes bytes addr s) = { s with mem := (storeBytes bytes addr s).mem } := by
  induction bytes generalizing addr s with
  | nil => rfl
  | cons v rest ih => rw [storeBytes, ih]; rfl

/-- Storing bytes keeps the canonical form. -/
theorem storeBytes_wf (bytes : List Byte) (addr : Word) (s : State) (h : Memory.wf s.mem) :
    Memory.wf (storeBytes bytes addr s).mem := by
  induction bytes generalizing addr s with
  | nil => exact h
  | cons v rest ih => exact ih _ _ (State.memWrite_wf h addr v)

end Sys2Proof.Machine
end

