-- ==== Sys2Proof/Laws/Table.lean ====
section
/-! SUPPORT. The opcode table and the meanings together: which bytes are listed, and, by the opcode byte, what the instruction at PC does (`Shape`). The proofs about a step cite these instead of splitting the table again. -/

namespace Sys2Proof.Machine

/-- A byte has no row exactly when it is not one of the 37 of R100. -/
theorem tableEntry_none_iff_not_listed {op b1 b2 : Byte} : tableEntry op b1 b2 = none ↔ op ∉ listedOpcodes := by
  constructor
  · intro h hm
    simp only [listedOpcodes, List.mem_append, List.mem_cons, List.not_mem_nil, or_false] at hm
    rcases hm with (((e | e | e | e | e | e | e | e) | (e | e | e | e | e | e | e | e | e | e)) |
        (e | e | e | e | e | e | e | e | e | e)) | (e | e | e | e | e | e | e | e | e) <;>
      subst e <;> cases h
  · intro h
    cases e : tableEntry op b1 b2 with
    | none => rfl
    | some i =>
      refine absurd ?_ h
      unfold tableEntry at e
      split at e <;> first | decide | cases e

/-- What an instruction with this opcode byte and first operand byte does to a state, by family. -/
inductive Shape (s : State) (op b1 : Byte) (i : Instr) : Prop where
  | load (r : Reg8) (hx : exec i s = loadReg r b1 s) (ho : op = loadOpcode r)
  | store (hx : exec i s = .next ((s.memWrite s.hlTarget b1).advance 2)) (ho : op = 0x36#8)
  | jump (target : Word) (hx : exec i s = .next (s.setPc target))
  | push (ret target : Word) (hx : exec i s = callTo ret target s) (ho : PushesNow op s.flags)
  | pop (hx : exec i s = returnPop s) (ho : PopsNow op s.flags)
  | halt (hx : exec i s = execHalt s) (ho : op = 0x76#8)

theorem jumpIf_shape {s : State} {op b1 : Byte} {i : Instr} {cc : Cond} {nn : Word} (h : exec i s = jumpIf cc nn s) :
    Shape s op b1 i := by
  unfold jumpIf at h
  split at h <;> exact .jump _ h

theorem jumpRelIf_shape {s : State} {op b1 : Byte} {i : Instr} {cc : Cond} {e : Int} (h : exec i s = jumpRelIf cc e s) :
    Shape s op b1 i := by
  unfold jumpRelIf at h
  split at h <;> exact .jump _ h

theorem callIf_shape {s : State} {op b1 : Byte} {i : Instr} {cc : Cond} {nn : Word} (h : exec i s = callIf cc nn s)
    (hp : condHolds cc s.flags = true → PushesNow op s.flags) : Shape s op b1 i := by
  unfold callIf at h
  split at h
  · rename_i hc; exact .push _ _ h (hp hc)
  · exact .jump _ h

theorem returnIf_shape {s : State} {op b1 : Byte} {i : Instr} {cc : Cond} (h : exec i s = returnIf cc s)
    (hp : condHolds cc s.flags = true → PopsNow op s.flags) : Shape s op b1 i := by
  unfold returnIf at h
  split at h
  · rename_i hc; exact .pop h (hp hc)
  · exact .jump _ h

/-- Every row of the table has its shape. -/
theorem shape_of_tableEntry {s : State} {op b1 b2 : Byte} {i : Instr} (h : tableEntry op b1 b2 = some i) : Shape s op b1 i := by
  unfold tableEntry at h
  split at h <;> first
    | cases h; done
    | (cases h; first
        | exact .load .b rfl rfl
        | exact .load .c rfl rfl
        | exact .load .d rfl rfl
        | exact .load .e rfl rfl
        | exact .load .h rfl rfl
        | exact .load .l rfl rfl
        | exact .load .a rfl rfl
        | exact .store rfl rfl
        | exact .jump _ rfl
        | exact jumpIf_shape rfl
        | exact jumpRelIf_shape rfl
        | exact .push _ _ rfl (by simp [PushesNow])
        | exact callIf_shape rfl (by simp [PushesNow, condHolds])
        | exact .pop rfl (by simp [PopsNow])
        | exact returnIf_shape rfl (by simp [PopsNow, condHolds])
        | exact .halt rfl rfl)

/-- The instruction at PC has the shape its opcode byte gives. -/
theorem State.entry_shape {s : State} {i : Instr} (h : s.entry = some i) :
    Shape s (s.memRead s.pc) (s.memRead (s.pcPlus 1)) i := shape_of_tableEntry h

/-- An opcode byte that pushes now is a call or a restart (R230). -/
theorem exec_of_pushesNow {s : State} {op b1 b2 : Byte} {i : Instr} (h : tableEntry op b1 b2 = some i)
    (hp : PushesNow op s.flags) : ∃ ret target, exec i s = callTo ret target s := by
  have taken : ∀ (j : Instr) (cc : Cond) (nn : Word), exec j s = callIf cc nn s → condHolds cc s.flags = true →
      ∃ ret target, exec j s = callTo ret target s := by
    intro j cc nn hj hc
    rw [callIf, if_pos hc] at hj
    exact ⟨_, _, hj⟩
  rcases hp with hm | ⟨rfl, hf⟩ | ⟨rfl, hf⟩ | ⟨rfl, hf⟩ | ⟨rfl, hf⟩
  · simp only [List.mem_cons, List.not_mem_nil, or_false] at hm
    rcases hm with rfl | rfl | rfl | rfl | rfl | rfl | rfl | rfl | rfl <;> cases h <;> exact ⟨_, _, rfl⟩
  · cases h; exact taken _ .nz _ rfl (by simp [condHolds, hf])
  · cases h; exact taken _ .z _ rfl (by simp [condHolds, hf])
  · cases h; exact taken _ .nc _ rfl (by simp [condHolds, hf])
  · cases h; exact taken _ .c _ rfl (by simp [condHolds, hf])

/-- An opcode byte that pops now is a return (R230). -/
theorem exec_of_popsNow {s : State} {op b1 b2 : Byte} {i : Instr} (h : tableEntry op b1 b2 = some i)
    (hp : PopsNow op s.flags) : exec i s = returnPop s := by
  have taken : ∀ (j : Instr) (cc : Cond), exec j s = returnIf cc s → condHolds cc s.flags = true → exec j s = returnPop s := by
    intro j cc hj hc
    rw [returnIf, if_pos hc] at hj
    exact hj
  rcases hp with rfl | ⟨rfl, hf⟩ | ⟨rfl, hf⟩ | ⟨rfl, hf⟩ | ⟨rfl, hf⟩
  · cases h; rfl
  · cases h; exact taken _ .nz rfl (by simp [condHolds, hf])
  · cases h; exact taken _ .z rfl (by simp [condHolds, hf])
  · cases h; exact taken _ .nc rfl (by simp [condHolds, hf])
  · cases h; exact taken _ .c rfl (by simp [condHolds, hf])

/-! ### The words of the statements -/

/-- A state whose PC alone is replaced has jumped there. -/
theorem jumpedTo_setPc (s : State) (target : Word) : JumpedTo target s (s.setPc target) :=
  ⟨rfl, rfl, ⟨fun r => State.setPc_reg s r target, rfl, rfl, rfl⟩, fun _ => rfl⟩

/-- Raising a fault takes it precisely (R232). -/
theorem faultTaken_raise (s : State) (kind : FaultKind) : FaultTaken kind s (s.raise kind) :=
  ⟨rfl, rfl, rfl, rfl, rfl, fun r => State.raise_reg s r kind, fun _ => rfl⟩

end Sys2Proof.Machine
end

