-- ==== Sys2Proof/Tests/Slice0.lean ====
section
/-! SUPPORT. Tests of one step each, with results taken from the spec's vectors (95_test_vectors.md, ids V and W) and examples (the R rules); the smoke test of WellFormed; each constructor's word written out from the spec's encoding; and a witness for the hypotheses of each statement. -/

namespace Sys2Proof.Tests

open Sys2Proof.Machine

/-- The reset state with bytes at an address and PC there. -/
def bootAt (pc : Word) (bytes : List Byte) : State := storeBytes bytes pc { State.reset with pc := pc }

/-- The reset state with bytes at 0. -/
def boot (bytes : List Byte) : State := bootAt 0x0000#16 bytes

/-- With F.Z and F.C. -/
def flagged (s : State) (z c : Bool) : State := { s with flags := ⟨z, false, false, c⟩ }

/-- With SP. -/
def stacked (s : State) (sp : Word) : State := { s with sp := sp }

/-- Some view of the state after one step. -/
def see {α : Type} (s : State) (view : State → α) : α := view (stepState s)

/-- PC and SP. -/
def pcSp (t : State) : Word × Word := (t.pc, t.sp)

/-- Two bytes of memory, the lower address first. -/
def pair (t : State) (x : Word) : Byte × Byte := (t.memRead x, t.memRead (x + 1#16))

/-! ### WellFormed -/

theorem test_wf_refuses_wide_displacements :
    Instr.wf (.jr 128) = false ∧ Instr.wf (.jr (-129)) = false ∧ Instr.wf (.jrNZ 200) = false ∧ Instr.wf (.jrZ 128) = false ∧
      Instr.wf (.jrNC (-300)) = false ∧ Instr.wf (.jrC 1000) = false := by decide

theorem test_wf_accepts_the_ends_of_the_range :
    Instr.wf (.jr 127) = true ∧ Instr.wf (.jr (-128)) = true ∧ Instr.wf (.jrC 0) = true ∧ Instr.wf .halt = true := by decide

/-! ### Decoding: one word for each constructor, its opcode written out bit by bit from the `bits` column of R100 -/

theorem test_decode_loads :
    decode [0b00000110#8, 0xA5#8] = .instr (.ldB 0xA5#8) [] ∧
    decode [0b00001110#8, 0xA5#8] = .instr (.ldC 0xA5#8) [] ∧
    decode [0b00010110#8, 0xA5#8] = .instr (.ldD 0xA5#8) [] ∧
    decode [0b00011110#8, 0xA5#8] = .instr (.ldE 0xA5#8) [] ∧
    decode [0b00100110#8, 0xA5#8] = .instr (.ldH 0xA5#8) [] ∧
    decode [0b00101110#8, 0xA5#8] = .instr (.ldL 0xA5#8) [] ∧
    decode [0b00111110#8, 0xA5#8] = .instr (.ldA 0xA5#8) [] ∧
    decode [0b00110110#8, 0xA5#8] = .instr (.ldHL 0xA5#8) [] := by decide

theorem test_decode_jumps :
    decode [0b11000011#8, 0x34#8, 0x12#8] = .instr (.jp 0x1234#16) [] ∧
    decode [0b11000010#8, 0x34#8, 0x12#8] = .instr (.jpNZ 0x1234#16) [] ∧
    decode [0b11001010#8, 0x34#8, 0x12#8] = .instr (.jpZ 0x1234#16) [] ∧
    decode [0b11010010#8, 0x34#8, 0x12#8] = .instr (.jpNC 0x1234#16) [] ∧
    decode [0b11011010#8, 0x34#8, 0x12#8] = .instr (.jpC 0x1234#16) [] := by decide

theorem test_decode_relative_jumps :
    decode [0b00011000#8, 0xFE#8] = .instr (.jr (-2)) [] ∧
    decode [0b00100000#8, 0xFE#8] = .instr (.jrNZ (-2)) [] ∧
    decode [0b00101000#8, 0xFE#8] = .instr (.jrZ (-2)) [] ∧
    decode [0b00110000#8, 0xFE#8] = .instr (.jrNC (-2)) [] ∧
    decode [0b00111000#8, 0xFE#8] = .instr (.jrC (-2)) [] := by decide

theorem test_decode_calls :
    decode [0b11001101#8, 0x34#8, 0x12#8] = .instr (.call 0x1234#16) [] ∧
    decode [0b11000100#8, 0x34#8, 0x12#8] = .instr (.callNZ 0x1234#16) [] ∧
    decode [0b11001100#8, 0x34#8, 0x12#8] = .instr (.callZ 0x1234#16) [] ∧
    decode [0b11010100#8, 0x34#8, 0x12#8] = .instr (.callNC 0x1234#16) [] ∧
    decode [0b11011100#8, 0x34#8, 0x12#8] = .instr (.callC 0x1234#16) [] := by decide

theorem test_decode_returns :
    decode [0b11001001#8] = .instr .ret [] ∧
    decode [0b11000000#8] = .instr .retNZ [] ∧
    decode [0b11001000#8] = .instr .retZ [] ∧
    decode [0b11010000#8] = .instr .retNC [] ∧
    decode [0b11011000#8] = .instr .retC [] := by decide

theorem test_decode_restarts :
    decode [0b11000111#8] = .instr .rst00 [] ∧
    decode [0b11001111#8] = .instr .rst08 [] ∧
    decode [0b11010111#8] = .instr .rst10 [] ∧
    decode [0b11011111#8] = .instr .rst18 [] ∧
    decode [0b11100111#8] = .instr .rst20 [] ∧
    decode [0b11101111#8] = .instr .rst28 [] ∧
    decode [0b11110111#8] = .instr .rst30 [] ∧
    decode [0b11111111#8] = .instr .rst38 [] := by decide

theorem test_decode_halt :
    decode [0b01110110#8] = .instr .halt [] := by decide

/-- V2, V3, V4, V5, V6: bytes the table does not list; no operand is looked at. -/
theorem test_decode_unknown :
    decode [0xCB#8, 0x37#8] = .unknownOpcode 0xCB#8 ∧ decode [0x00#8] = .unknownOpcode 0x00#8 ∧ decode [0x3C#8] = .unknownOpcode 0x3C#8 ∧
      decode [0xF3#8] = .unknownOpcode 0xF3#8 ∧ decode [0xC5#8] = .unknownOpcode 0xC5#8 := by decide

theorem test_decode_short : decode [] = .noByte ∧ decode [0xC3#8, 0x02#8] = .missingOperand 0xC3#8 := by decide

/-- W10, W11: the word c3 02 01, numbered as the opcode table numbers it. -/
theorem test_decodeTableWord : decodeTableWord 24 0x0102C3 = some (.jp 0x0102#16) ∧ decodeTableWord 8 0xC3 = some (.jp 0x0000#16) := by decide

/-- R90, R100: a row of the table as the decoder describes it. -/
theorem test_descriptor : descriptor 0xC2#8 = some ⟨"JP NZ, nn", .f3, 3⟩ ∧ descriptor 0x36#8 = some ⟨"LD (HL), n", .f2, 2⟩ := by decide

/-! ### Loads -/

/-- V130. -/
theorem test_ldB : see (boot [0x06#8, 0xFF#8]) (fun t => (t.b, t.pc)) = (0xFF#8, 0x0002#16) := by decide

/-- V131. -/
theorem test_ldC : see (boot [0x0E#8, 0x80#8]) (fun t => (t.c, t.pc)) = (0x80#8, 0x0002#16) := by decide

/-- V132, W7. -/
theorem test_ldD : see (boot [0x16#8, 0x05#8]) (fun t => (t.d, t.pc)) = (0x05#8, 0x0002#16) := by decide

/-- V133: the operand wraps to address 0. -/
theorem test_ldE : see (bootAt 0xFFFF#16 [0x1E#8, 0x42#8]) (fun t => (t.e, t.pc)) = (0x42#8, 0x0001#16) := by decide

/-- V134. -/
theorem test_ldH : see { boot [0x26#8, 0x0D#8] with l := 0x0D#8 } (fun t => (t.h, t.hl)) = (0x0D#8, 0x0D0D#16) := by decide

/-- V135. -/
theorem test_ldL : see { boot [0x2E#8, 0x00#8] with h := 0xC0#8 } (fun t => (t.l, t.hl)) = (0x00#8, 0xC000#16) := by decide

/-- V137: flags stay. -/
theorem test_ldA : see (flagged (boot [0x3E#8, 0x55#8]) true true) (fun t => (t.a, t.flags)) = (0x55#8, ⟨true, false, false, true⟩) := by decide

/-- V138, W8. -/
theorem test_ldHL : see { boot [0x36#8, 0x11#8] with h := 0x0D#8, l := 0x0D#8 } (fun t => (t.memRead 0x0D0D#16, t.pc)) = (0x11#8, 0x0002#16) := by decide

/-- V139: its own opcode byte is overwritten after the fetch. -/
theorem test_ldHL_over_itself : see (boot [0x36#8, 0x77#8]) (fun t => (t.memRead 0x0000#16, t.pc)) = (0x77#8, 0x0002#16) := by decide

/-! ### Jumps -/

/-- V30, W3. -/
theorem test_jp : see (boot [0xC3#8, 0x02#8, 0x01#8]) State.pc = 0x0102#16 := by decide

/-- V32: the operands lie across the top of memory. -/
theorem test_jp_wraps : see (bootAt 0xFFFE#16 [0xC3#8, 0x00#8, 0x80#8]) State.pc = 0x8000#16 := by decide

/-- V33, V34. -/
theorem test_jpNZ : [see (flagged (boot [0xC2#8, 0x00#8, 0x40#8]) false false) State.pc, see (flagged (boot [0xC2#8, 0x00#8, 0x40#8]) true false) State.pc] = [0x4000#16, 0x0003#16] := by decide

/-- V35, V36. -/
theorem test_jpZ : [see (flagged (boot [0xCA#8, 0x00#8, 0x40#8]) true false) State.pc, see (flagged (boot [0xCA#8, 0x00#8, 0x40#8]) false false) State.pc] = [0x4000#16, 0x0003#16] := by decide

/-- V37, V38. -/
theorem test_jpNC : [see (flagged (boot [0xD2#8, 0x10#8, 0x00#8]) false false) State.pc, see (flagged (boot [0xD2#8, 0x10#8, 0x00#8]) false true) State.pc] = [0x0010#16, 0x0003#16] := by decide

/-- V39, V40: the second is not taken and wraps. -/
theorem test_jpC : [see (flagged (boot [0xDA#8, 0xFF#8, 0xFF#8]) true true) State.pc, see (flagged (bootAt 0xFFFD#16 [0xDA#8]) false false) State.pc] = [0xFFFF#16, 0x0000#16] := by decide

/-- V50, V51, V53, V54. -/
theorem test_jr : [see (boot [0x18#8, 0x0A#8]) State.pc, see (boot [0x18#8, 0xFE#8]) State.pc, see (boot [0x18#8, 0x7F#8]) State.pc, see (boot [0x18#8, 0x80#8]) State.pc] = [0x000C#16, 0x0000#16, 0x0081#16, 0xFF82#16] := by decide

/-- V55, V56. -/
theorem test_jr_wraps : [see (bootAt 0xFFFE#16 [0x18#8, 0x05#8]) State.pc, see (bootAt 0x0100#16 [0x18#8, 0x80#8]) State.pc] = [0x0005#16, 0x0082#16] := by decide

/-- V57, V58. -/
theorem test_jrNZ : [see (flagged (boot [0x20#8, 0x04#8]) false false) State.pc, see (flagged (boot [0x20#8, 0x04#8]) true false) State.pc] = [0x0006#16, 0x0002#16] := by decide

/-- V59, V60. -/
theorem test_jrZ : [see (flagged (boot [0x28#8, 0xFE#8]) true false) State.pc, see (flagged (boot [0x28#8, 0xFE#8]) false false) State.pc] = [0x0000#16, 0x0002#16] := by decide

/-- V61, V62. -/
theorem test_jrNC : [see (flagged (boot [0x30#8, 0x80#8]) false false) State.pc, see (flagged (boot [0x30#8, 0x80#8]) false true) State.pc] = [0xFF82#16, 0x0002#16] := by decide

/-- V63, V64. -/
theorem test_jrC : [see (flagged (bootAt 0x0100#16 [0x38#8, 0xF0#8]) false true) State.pc, see (flagged (boot [0x38#8, 0x10#8]) false false) State.pc] = [0x00F2#16, 0x0002#16] := by decide

/-! ### Calls, returns, restarts -/

/-- V70. -/
theorem test_call : see (boot [0xCD#8, 0x10#8, 0x00#8]) (fun t => (pcSp t, pair t 0xDFFE#16)) = ((0x0010#16, 0xDFFE#16), (0x03#8, 0x00#8)) := by decide

/-- V72: the record names the CALL, nothing moves. -/
theorem test_call_overflow : see (stacked (boot [0xCD#8, 0x10#8, 0x00#8]) 0xC001#16) (fun t => (pcSp t, t.runState, t.fault, pair t 0xBFFF#16)) = ((0x0000#16, 0xC001#16), .faulted, ⟨.stackOverflow, 0x0000#16, 0xCD#8⟩, (0x00#8, 0x00#8)) := by decide

/-- V74, V75: the second is not taken with a full stack. -/
theorem test_callNZ : [see (boot [0xC4#8, 0x00#8, 0x01#8]) pcSp, see (stacked (flagged (boot [0xC4#8, 0x00#8, 0x01#8]) true false) 0xC000#16) pcSp] = [(0x0100#16, 0xDFFE#16), (0x0003#16, 0xC000#16)] := by decide

/-- V77, and taken (R163). -/
theorem test_callZ : [see (stacked (boot [0xCC#8, 0x00#8, 0x20#8]) 0xC000#16) pcSp, see (flagged (boot [0xCC#8, 0x00#8, 0x20#8]) true false) pcSp] = [(0x0003#16, 0xC000#16), (0x2000#16, 0xDFFE#16)] := by decide

/-- V78. -/
theorem test_callNC : see (stacked (boot [0xD4#8, 0x00#8, 0x01#8]) 0xC001#16) (fun t => (pcSp t, t.fault)) = ((0x0000#16, 0xC001#16), ⟨.stackOverflow, 0x0000#16, 0xD4#8⟩) := by decide

/-- V79. -/
theorem test_callC : see (stacked (flagged (bootAt 0x1234#16 [0xDC#8, 0x78#8, 0x56#8]) false true) 0xD000#16) (fun t => (pcSp t, pair t 0xCFFE#16)) = ((0x5678#16, 0xCFFE#16), (0x37#8, 0x12#8)) := by decide

/-- V90. -/
theorem test_ret : see (storeBytes [0x03#8, 0x00#8] 0xDFFE#16 (stacked (bootAt 0x0010#16 [0xC9#8]) 0xDFFE#16)) pcSp = (0x0003#16, 0xE000#16) := by decide

/-- V92. -/
theorem test_ret_underflow : see (stacked (boot [0xC9#8]) 0xDFFF#16) (fun t => (pcSp t, t.runState, t.fault)) = ((0x0000#16, 0xDFFF#16), .faulted, ⟨.stackUnderflow, 0x0000#16, 0xC9#8⟩) := by decide

/-- V93, V94. -/
theorem test_retNZ : [see (boot [0xC0#8]) State.fault, see (flagged (boot [0xC0#8]) true false) State.fault] = [⟨.stackUnderflow, 0x0000#16, 0xC0#8⟩, FaultRecord.empty] := by decide

/-- V95, V96. -/
theorem test_retZ : [see (storeBytes [0x15#8, 0x00#8] 0xDFFE#16 (stacked (flagged (bootAt 0x0024#16 [0xC8#8]) true false) 0xDFFE#16)) pcSp, see (boot [0xC8#8]) pcSp] = [(0x0015#16, 0xE000#16), (0x0001#16, 0xE000#16)] := by decide

/-- V97, V98. -/
theorem test_retNC : [see (storeBytes [0xAD#8, 0xDE#8] 0xDFFC#16 (stacked (boot [0xD0#8]) 0xDFFC#16)) pcSp, see (flagged (boot [0xD0#8]) false true) pcSp] = [(0xDEAD#16, 0xDFFE#16), (0x0001#16, 0xE000#16)] := by decide

/-- V100, V101. -/
theorem test_retC : [see (storeBytes [0x00#8, 0x80#8] 0xDFFE#16 (stacked (flagged (boot [0xD8#8]) false true) 0xDFFE#16)) pcSp, see (bootAt 0xFFFF#16 [0xD8#8]) pcSp] = [(0x8000#16, 0xE000#16), (0x0000#16, 0xE000#16)] := by decide

/-- V110. -/
theorem test_rst00 : see (boot [0xC7#8]) (fun t => (pcSp t, pair t 0xDFFE#16)) = ((0x0000#16, 0xDFFE#16), (0x01#8, 0x00#8)) := by decide

/-- V111, W6. -/
theorem test_rst08 : see (boot [0xCF#8]) (fun t => (pcSp t, pair t 0xDFFE#16)) = ((0x0008#16, 0xDFFE#16), (0x01#8, 0x00#8)) := by decide

/-- V112. -/
theorem test_rst10 : see (stacked (bootAt 0x4000#16 [0xD7#8]) 0xC002#16) (fun t => (pcSp t, pair t 0xC000#16)) = ((0x0010#16, 0xC000#16), (0x01#8, 0x40#8)) := by decide

/-- V113, and where the stack has room (R184). -/
theorem test_rst18 : [see (stacked (boot [0xDF#8]) 0xC000#16) (fun t => (pcSp t, t.fault)), see (boot [0xDF#8]) (fun t => (pcSp t, t.fault))] = [((0x0000#16, 0xC000#16), ⟨.stackOverflow, 0x0000#16, 0xDF#8⟩), ((0x0018#16, 0xDFFE#16), FaultRecord.empty)] := by decide

/-- V114. -/
theorem test_rst20 : see (bootAt 0x0150#16 [0xE7#8]) (fun t => (pcSp t, pair t 0xDFFE#16)) = ((0x0020#16, 0xDFFE#16), (0x51#8, 0x01#8)) := by decide

/-- V115. -/
theorem test_rst28 : see (bootAt 0xFFFF#16 [0xEF#8]) (fun t => (pcSp t, pair t 0xDFFE#16)) = ((0x0028#16, 0xDFFE#16), (0x00#8, 0x00#8)) := by decide

/-- V116. -/
theorem test_rst30 : see (bootAt 0x0200#16 [0xF7#8]) (fun t => (pcSp t, pair t 0xDFFE#16)) = ((0x0030#16, 0xDFFE#16), (0x01#8, 0x02#8)) := by decide

/-- V117, V118. -/
theorem test_rst38 : [see (boot [0xFF#8]) (fun t => (pcSp t, t.runState)), see (stacked (boot [0xFF#8]) 0xC001#16) (fun t => (pcSp t, t.runState))] = [((0x0038#16, 0xDFFE#16), .running), ((0x0000#16, 0xC001#16), .faulted)] := by decide

/-! ### Halt, unknown opcodes, stopped cores -/

/-- V150, V152. -/
theorem test_halt : [see (boot [0x76#8]) (fun t => (t.pc, t.runState)), see (bootAt 0xFFFF#16 [0x76#8]) (fun t => (t.pc, t.runState))] = [(0x0001#16, .halted), (0x0000#16, .halted)] := by decide

/-- V1, V2, W9: the record, and the rest of the state as it was. -/
theorem test_unknown : [stepState (boot []), stepState (boot [0xCB#8, 0x37#8])] = [{ boot [] with runState := .faulted, fault := ⟨.unknownOpcode, 0x0000#16, 0x00#8⟩ }, { boot [0xCB#8, 0x37#8] with runState := .faulted, fault := ⟨.unknownOpcode, 0x0000#16, 0xCB#8⟩ }] := by decide

/-- V7: the second step answers the same fault. -/
theorem test_faulted_stays : hostStep .step (stepState State.reset) = (.stepped (.faulted ⟨.unknownOpcode, 0x0000#16, 0x00#8⟩), stepState State.reset) := by decide

/-- The fixed names together: a word placed at PC is what the next step runs (R204). -/
theorem test_placed_word : see (State.reset.withFetchWord 16 0x0516) (fun t => (t.d, t.pc)) = (0x05#8, 0x0002#16) := by decide

/-! ### The stack engine and the host -/

/-- V10, V11. -/
theorem test_push16_pop16 : ((push16 0xABCD#16 State.reset).map fun p => (p.sp, pair p 0xDFFE#16, (pop16 p).map fun q => (q.1, q.2.sp))) = some (0xDFFE#16, (0xCD#8, 0xAB#8), some (0xABCD#16, 0xE000#16)) := by decide

/-- R71: the other byte order swaps the two bytes and pops the same value. -/
theorem test_push16_low_first : ((push16With .lowFirst 0xABCD#16 State.reset).map fun p => (pair p 0xDFFE#16, (pop16With .lowFirst p).map Prod.fst)) = some ((0xAB#8, 0xCD#8), some 0xABCD#16) := by decide

/-- V13, V14, V17, V18. -/
theorem test_stack_limits : ((push16 0x0001#16 (stacked State.reset 0xC001#16)).isSome, (push16 0x0001#16 (stacked State.reset 0xC000#16)).isSome, (pop16 State.reset).isSome, (pop16 (stacked State.reset 0xDFFF#16)).isSome) = (false, false, false, false) := by decide

/-- V15, V16. -/
theorem test_push8 : ((push8 0x5A#8 (stacked State.reset 0xC001#16)).map (fun p => (p.sp, p.memRead 0xC000#16)), (push8 0x01#8 (stacked State.reset 0xC000#16)).isSome) = (some (0xC000#16, 0x5A#8), false) := by decide

/-- V162, V163, V164, V165. -/
theorem test_load_bounds : ((hostStep (.load [0x76#8] 0x7FFF) State.reset).1, (hostStep (.load [0x01#8, 0x02#8] 0x7FFF) State.reset).1, (hostStep (.load [] 0x8000) State.reset).1, (hostStep (.load [0x76#8] 0) (stepState State.reset)).2.runState) = (.loaded .ok, .loaded .programTooLarge, .loaded .ok, .faulted) := by decide

/-- V166, V167, V169. -/
theorem test_setters : ((hostStep (.setSp 0xBFFF) State.reset).1, (hostStep (.setSp 0xE001) State.reset).1, (hostStep (.setHl 0x1234) State.reset).2.h, (hostStep (.setHl 0x1234) State.reset).2.l) = (.refused, .refused, 0x12#8, 0x34#8) := by decide

/-- V170, V171, V172, V173. -/
theorem test_run_budgets : ((run 0 (boot [0x76#8])).1, (run 1 (boot [0x76#8])).1, (run 1 (boot [0x16#8, 0x05#8])).1, (run 1 State.reset).1) = (.budgetExhausted, .halted, .budgetExhausted, .faulted ⟨.unknownOpcode, 0x0000#16, 0x00#8⟩) := by decide

/-- R30. -/
theorem test_flag_byte : Flags.byte ⟨true, false, true, true⟩ = 0xB0#8 := by decide

/-- Writing the reset value removes the entry; entries stay in order. -/
theorem test_memory_canonical : (Memory.write (Memory.write (Memory.write [] 5 0x01#8) 3 0x02#8) 5 0x00#8, Memory.write [(9, 0x01#8)] 4 0x07#8) = ([(3, 0x02#8)], [(4, 0x07#8), (9, 0x01#8)]) := by decide

/-- P5: the JR at 0xFFFE to 0x0010 has the displacement 16; R150: from 0x0000, -128 gives 0xFF82. -/
theorem test_target_wraps : (dispToTarget 0xFFFE#16 0x0010#16, dispToTarget 0x0000#16 0xFF82#16) = (some 16, some (-128)) := by decide

/-- R112, R113, R115, R116. -/
theorem test_assembler : (asmText (.jpNZ 0x4000#16), asmText (.jrC (-16)), asmText (.ldHL 0x11#8), asmText .rst08, dispToTarget 0x0100#16 0x00F2#16) = ("JP NZ, 0x4000", "JR C, -16", "LD (HL), 0x11", "RST 0x08", some (-16)) := by decide


/-! ### Witnesses: for each statement with hypotheses, concrete states and operands that meet them all together, at the ends of their ranges where they have one -/

/-- A running core that has met no fault, with this SP, holding these bytes at PC, for the invariant's witnesses. -/
theorem boot_inv {bytes : List Byte} {pc sp : Word} (h : SpInRange sp.toNat) : (stacked (bootAt pc bytes) sp).Inv := by
  have hm : Memory.wf (bootAt pc bytes).mem := storeBytes_wf _ _ _ (show Memory.wf [] by decide)
  have hf := storeBytes_frame bytes pc { State.reset with pc := pc }
  refine ⟨hm, h, fun _ => ?_, fun hr => ?_⟩
  · show (bootAt pc bytes).fault = _
    rw [bootAt, hf]; rfl
  · have : (bootAt pc bytes).runState = .faulted := hr
    rw [bootAt, hf] at this; cases this

/-- OnlyResetLeavesHaltedOrFaulted. -/
theorem witness_stopped_cores :
    HostOp.load [0x76#8] 0 ≠ .reset ∧ (stepState (boot [0x76#8])).runState ≠ .running ∧ (stepState State.reset).runState ≠ .running := by
  decide

/-- CanonicalMemoriesAgreeOnlyIfEqual, with cells at both ends of memory. -/
theorem witness_canonical_memories :
    Memory.wf [(0, 0x01#8), (65535, 0x02#8)] ∧
      ∀ a : Nat, a < 65536 → Memory.read [(0, 0x01#8), (65535, 0x02#8)] a = Memory.read [(0, 0x01#8), (65535, 0x02#8)] a :=
  ⟨by decide, fun _ _ => rfl⟩

/-- DecodeOfEncodeIsTheInstruction, at the ends of the displacement's range. -/
theorem witness_well_formed : Instr.wf (.jr (-128)) = true ∧ Instr.wf (.jrC 127) = true ∧ Instr.wf (.call 0xFFFF#16) = true := by decide

/-- EncodeOfDecodeIsTheBytes and LengthIsKnownFromTheOpcodeByte: one word of each length, two tails of one opcode byte. -/
theorem witness_decoded_words :
    decode [0xC9#8, 0x76#8] = .instr .ret [0x76#8] ∧ decode [0x18#8, 0x80#8] = .instr (.jr (-128)) [] ∧
      decode [0xC3#8, 0x02#8, 0x01#8, 0x76#8] = .instr (.jp 0x0102#16) [0x76#8] ∧
      decode [0xC3#8, 0x00#8, 0x00#8] = .instr (.jp 0x0000#16) [] := by decide

/-- RestartFieldSelectsTheVector and the pushing clause of CallRule: the lowest and the highest SP with room. -/
theorem witness_sp_with_room :
    (SpInRange (0xC002#16).toNat ∧ (0xC002#16) ≠ 0xC000#16 ∧ (0xC002#16) ≠ 0xC001#16) ∧
      SpInRange (0xE000#16).toNat ∧ (0xE000#16) ≠ 0xC000#16 ∧ (0xE000#16) ≠ 0xC001#16 := by decide

/-- The popping clause of ReturnRule: the lowest and the highest SP with something to pop. -/
theorem witness_sp_with_values :
    (SpInRange (0xC000#16).toNat ∧ (0xC000#16) ≠ 0xDFFF#16 ∧ (0xC000#16) ≠ 0xE000#16) ∧
      SpInRange (0xDFFE#16).toNat ∧ (0xDFFE#16) ≠ 0xDFFF#16 ∧ (0xDFFE#16) ≠ 0xE000#16 := by decide

/-- The clauses of CallRule meet at SP 0xC001 and 0xC002, and do not contradict each other: a taken call faults at the one and pushes at the other, a call not taken does neither at 0xC000. -/
theorem witness_call_clauses :
    see (stacked (boot [0xCD#8, 0x10#8, 0x00#8]) 0xC001#16) State.runState = .faulted ∧
      see (stacked (boot [0xCD#8, 0x10#8, 0x00#8]) 0xC002#16) pcSp = (0x0010#16, 0xC000#16) ∧
      see (stacked (boot [0xDC#8, 0x10#8, 0x00#8]) 0xC000#16) pcSp = (0x0003#16, 0xC000#16) := by decide

/-- The clauses of ReturnRule meet at SP 0xDFFE and 0xDFFF. -/
theorem witness_return_clauses :
    see (stacked (boot [0xC9#8]) 0xDFFE#16) pcSp = (0x0000#16, 0xE000#16) ∧
      see (stacked (boot [0xC9#8]) 0xDFFF#16) State.runState = .faulted ∧
      see (stacked (boot [0xD8#8]) 0xE000#16) pcSp = (0x0001#16, 0xE000#16) := by decide

/-- StepRunsTheDecodedInstruction, StepIsTheInstructionCycle and FetchReadsExactlyTheInstruction, with the operand across the top of memory. -/
theorem witness_decoded_at_pc :
    (bootAt 0xFFFF#16 [0x1E#8, 0x42#8]).runState = .running ∧
      decode [(bootAt 0xFFFF#16 [0x1E#8, 0x42#8]).memRead 0xFFFF#16, (bootAt 0xFFFF#16 [0x1E#8, 0x42#8]).memRead (0xFFFF#16 + 1#16),
        (bootAt 0xFFFF#16 [0x1E#8, 0x42#8]).memRead (0xFFFF#16 + 2#16)] = .instr (.ldE 0x42#8) [0x00#8] ∧
      fetchAddresses (bootAt 0xFFFF#16 [0x1E#8, 0x42#8]) = [0xFFFF#16, 0x0000#16] := by decide

/-- StepRunsTheInstructionWhoseBytesStandAtPc, at the same place. -/
theorem witness_bytes_at_pc :
    (bootAt 0xFFFF#16 [0x1E#8, 0x42#8]).runState = .running ∧ Instr.wf (.ldE 0x42#8) = true ∧
      ∀ (k : Nat) (v : Byte), (encode (.ldE 0x42#8))[k]? = some v →
        (bootAt 0xFFFF#16 [0x1E#8, 0x42#8]).memRead ((bootAt 0xFFFF#16 [0x1E#8, 0x42#8]).pc + BitVec.ofNat 16 k) = v := by
  refine ⟨by decide, by decide, fun k v h => ?_⟩
  match k with
  | 0 => exact (by decide : (bootAt 0xFFFF#16 [0x1E#8, 0x42#8]).memRead 0xFFFF#16 = 0x1E#8).trans (Option.some.inj h)
  | 1 => exact (by decide : (bootAt 0xFFFF#16 [0x1E#8, 0x42#8]).memRead 0x0000#16 = 0x42#8).trans (Option.some.inj h)
  | k + 2 => simp [encode] at h

/-- UnknownOpcodeIsTaken and StepIsTheInstructionCycle: erased memory, the prefix byte and a byte beside a listed one. -/
theorem witness_unknown_opcodes :
    State.reset.runState = .running ∧ State.reset.memRead State.reset.pc ∉ listedOpcodes ∧
      (boot [0xCB#8]).memRead 0x0000#16 ∉ listedOpcodes ∧ (boot [0xFE#8]).memRead 0x0000#16 ∉ listedOpcodes := by decide

/-- StepRunsThePlacedWord. -/
theorem witness_placed_word : decodeTableWord 8 0x76 = some .halt ∧ decodeTableWord 24 0xFFFFCD = some (.call 0xFFFF#16) := by decide

/-- PopAfterPushGivesTheValueBack, for both byte orders, at the lowest SP with room. -/
theorem witness_pushes :
    SpInRange (stacked State.reset 0xC002#16).sp.toNat ∧ (∃ p, push16With .lowFirst 0xABCD#16 (stacked State.reset 0xC002#16) = some p) ∧
      ∃ p, push16With .highFirst 0xABCD#16 (stacked State.reset 0xC002#16) = some p :=
  ⟨by decide, ⟨_, rfl⟩, ⟨_, rfl⟩⟩

/-- PushOfOneByte: both clauses, at the ends. -/
theorem witness_push8 :
    (stacked State.reset 0xC000#16).sp = 0xC000#16 ∧ (SpInRange (0xC001#16).toNat ∧ (0xC001#16) ≠ 0xC000#16) ∧
      SpInRange (0xE000#16).toNat ∧ (0xE000#16) ≠ 0xC000#16 := by decide

/-- StackDepthAccounting and StackHolds4096Values. -/
theorem witness_push_sequences :
    SpInRange State.reset.sp.toNat ∧ State.reset.sp = 0xE000#16 ∧
      ∃ p, pushAll .highFirst [0x1234#16, 0x5678#16] State.reset = some p := ⟨by decide, rfl, _, rfl⟩

/-- FaultsArePrecise and ExactlyThreeFaultsWithTheStatedCauses: a step to each fault from a state of the invariant, at the SP where the overflow and the underflow begin. -/
theorem witness_each_fault :
    (State.reset.Inv ∧ see State.reset State.runState = .faulted) ∧
      ((stacked (boot [0xC7#8]) 0xC001#16).Inv ∧ see (stacked (boot [0xC7#8]) 0xC001#16) (fun t => t.fault.kind) = .stackOverflow) ∧
      (stacked (boot [0xC9#8]) 0xDFFF#16).Inv ∧ see (stacked (boot [0xC9#8]) 0xDFFF#16) (fun t => t.fault.kind) = .stackUnderflow :=
  ⟨⟨⟨by decide, by decide, by decide, by decide⟩, by decide⟩, ⟨boot_inv (by decide), by decide⟩, boot_inv (by decide), by decide⟩

/-- StepKeepsTheInvariant, HostOperationsKeepTheInvariant, NoStepWritesAFlag, SpMovesByTwoOrNotAtAll, UnreadRegistersAndFlagsDoNotInterfere: a step that pushes. -/
theorem witness_invariant_step :
    (stacked (boot [0xC7#8]) 0xC002#16).Inv ∧
      step (stacked (boot [0xC7#8]) 0xC002#16) = .next (stepState (stacked (boot [0xC7#8]) 0xC002#16)) :=
  ⟨boot_inv (by decide), step_eq_stepState _⟩

/-- StepKeepsTheFaultRecordTrue, from a core that has faulted already. -/
theorem witness_record :
    (stepState State.reset).runState = .faulted ∧ (stepState State.reset).fault.addr = (stepState State.reset).pc ∧
      (stepState State.reset).fault.opcode = (stepState State.reset).memRead (stepState State.reset).pc := by decide

/-- RegistersChangeOnlyByTheirLoads. -/
theorem witness_register_change : see (boot [0x3E#8, 0x7F#8]) (fun t => t.reg .a) ≠ (boot [0x3E#8, 0x7F#8]).reg .a := by decide

/-- MemoryChangesOnlyByStoresAndPushes: a store and a push. -/
theorem witness_memory_change :
    see (boot [0x36#8, 0x77#8]) (fun t => t.memRead 0x0000#16) ≠ (boot [0x36#8, 0x77#8]).memRead 0x0000#16 ∧
      see (boot [0xC7#8]) (fun t => t.memRead 0xDFFE#16) ≠ (boot [0xC7#8]).memRead 0xDFFE#16 := by decide

/-- ReturnComesBackFromACall: a CALL and an RST to a RET. -/
theorem witness_call_and_return :
    see (storeBytes [0xC9#8] 0x0010#16 (boot [0xCD#8, 0x10#8, 0x00#8])) (fun t => (t.runState, t.memRead t.pc)) = (.running, 0xC9#8) ∧
      see (storeBytes [0xC9#8] 0x0038#16 (boot [0xFF#8])) (fun t => (t.runState, t.memRead t.pc)) = (.running, 0xC9#8) ∧
      SpInRange State.reset.sp.toNat := by decide

/-- ReturnComesBackFromATakenConditionalCall: each of the four conditions taken, to a RET. -/
theorem witness_conditional_call_and_return :
    let s (op : Byte) (f : Flags) : State := { storeBytes [0xC9#8] 0x0010#16 (boot [op, 0x10#8, 0x00#8]) with flags := f }
    let arrives (s : State) : Prop := s.runState = .running ∧ see s (fun t => (t.runState, t.memRead t.pc)) = (.running, 0xC9#8)
    arrives (s 0xC4#8 ⟨false, false, false, false⟩) ∧ arrives (s 0xCC#8 ⟨true, false, false, false⟩) ∧
      arrives (s 0xD4#8 ⟨false, false, false, false⟩) ∧ arrives (s 0xDC#8 ⟨false, false, false, true⟩) ∧
      SpInRange State.reset.sp.toNat := by decide

/-- StoresAreSeenByTheNextFetch: V140. -/
theorem witness_store_ahead :
    { boot [0x36#8, 0x76#8] with l := 0x02#8 }.runState = .running ∧
      { boot [0x36#8, 0x76#8] with l := 0x02#8 }.hlTarget = { boot [0x36#8, 0x76#8] with l := 0x02#8 }.pc + 2#16 ∧
      see { boot [0x36#8, 0x76#8] with l := 0x02#8 } (fun t => see t State.runState) = .halted := by decide

/-- LoadCopiesTheImageOrRefuses: the last byte of the region, and one past it. -/
theorem witness_load_bounds :
    0x7FFF + [0x76#8].length ≤ 32768 ∧ 0x8000 + [0x76#8].length > 32768 ∧ [0x76#8][0]? = some 0x76#8 := by decide

/-- RunsComposeOverBudgets: a Run that stopped. -/
theorem witness_run_stopped : (run 1 (boot [0x76#8])).1 ≠ .budgetExhausted := by decide

/-- RestartOperandsAreTheEightVectors: the last operand and its neighbour. -/
theorem witness_restart_operands :
    rstOfOperand 0x38 = some .rst38 ∧ rstOfOperand 0x39 = none ∧ rstOfOperand 0x40 = none := by decide

/-- WrittenTargetOfARelativeJumpIsReached: the farthest targets forward and back, and one past each; both ends of the range of a displacement. -/
theorem witness_relative_targets :
    (dispToTarget 0x0100#16 0x0181#16 = some 127 ∧ dispToTarget 0x0100#16 0x0182#16 = none) ∧
      (dispToTarget 0x0100#16 0x0082#16 = some (-128) ∧ dispToTarget 0x0100#16 0x0081#16 = none) ∧
      (Instr.jr 127).wf = true ∧ (Instr.jr (-128)).wf = true := by decide

end Sys2Proof.Tests
end

section
/-! The state and its HL view (10_state.md R24, R35): what the reset state holds, and what the HL view reads before and after the host's write of it. -/

namespace Sys2Proof.Machine

/-! ### The reset state -/

/-- Every register of the reset state is zero (R35). -/
@[simp] theorem State.reset_reg (r : Reg8) : State.reset.reg r = 0x00#8 := by cases r <;> rfl

/-- Every memory byte of the reset state is zero: its memory lists no cell (R35, R53). -/
@[simp] theorem State.reset_memRead (x : Word) : State.reset.memRead x = 0x00#8 :=
  Memory.read_unlisted (by simp [State.reset])

/-- Settles O1: the registers and memory by their own lemmas, the other fields and the two views by evaluation. -/
theorem resetLeavesTheStatedValues : Obligations.ResetLeavesTheStatedValues :=
  ⟨State.reset_reg, rfl, rfl, rfl, rfl, rfl, State.reset_memRead, rfl, rfl⟩

/-! ### The HL view -/

/-- The value of HL by its two registers (R24, R7). -/
theorem State.hl_toNat (s : State) : s.hl.toNat = (s.reg .h).toNat * 256 + (s.reg .l).toNat :=
  joinBytes_toNat s.h s.l

/-- HL reads back what was written to it (R24). -/
@[simp] theorem State.setHl_hl (s : State) (w : Word) : (s.setHl w).hl = w := joinBytes_bytes w

@[simp] theorem State.setHl_reg_h (s : State) (w : Word) : (s.setHl w).reg .h = hiByte w := rfl

@[simp] theorem State.setHl_reg_l (s : State) (w : Word) : (s.setHl w).reg .l = loByte w := rfl

/-- A write of HL leaves every register but H and L (R24). -/
theorem State.setHl_reg_other (s : State) (w : Word) {r : Reg8} (hh : r ≠ .h) (hl : r ≠ .l) :
    (s.setHl w).reg r = s.reg r := by
  cases r with
  | h => exact absurd rfl hh
  | l => exact absurd rfl hl
  | a | b | c | d | e => rfl

/-- `v[15:8]` of a number the host gives, reduced modulo 65,536 (R7, R281). -/
theorem hiByte_ofNat_toNat (v : Nat) : (hiByte (BitVec.ofNat 16 v)).toNat = v / 256 % 256 := by
  rw [hiByte_toNat, BitVec.toNat_ofNat]
  omega

/-- `v[7:0]` of a number the host gives, reduced modulo 65,536 (R7, R281). -/
theorem loByte_ofNat_toNat (v : Nat) : (loByte (BitVec.ofNat 16 v)).toNat = v % 256 := by
  rw [loByte_toNat, BitVec.toNat_ofNat]
  omega

/-- Settles O3: the value of the view by `hl_toNat`; the host's write is `setHl` of the number reduced to 16 bits, whose two bytes and frame the lemmas above give. -/
theorem hlIsAViewOfHAndL : Obligations.HlIsAViewOfHAndL := by
  refine ⟨State.hl_toNat, fun s v => ⟨s.setHl (BitVec.ofNat 16 v), rfl, ?_⟩⟩
  have hview : (s.setHl (BitVec.ofNat 16 v)).hl.toNat = v % 65536 := by
    rw [State.setHl_hl, BitVec.toNat_ofNat]
  exact ⟨hiByte_ofNat_toNat v, loByte_ofNat_toNat v, hview, fun _ => State.setHl_reg_other s _,
    rfl, rfl, rfl, ⟨rfl, rfl⟩, State.setHl_memRead s _⟩

end Sys2Proof.Machine
end

section
/-! The stack engine (20_memory.md R71 to R76): a pop after a push, and the push of one byte. -/

namespace Sys2Proof.Machine

/-! ### A pop after a push -/

/-- A push that succeeds from a legal SP leaves room for the pop after it (R72, R74). -/
theorem push16With_not_popUnderflows {order : StackByteOrder} {v : Word} {s p : State} (hs : SpInRange s.sp.toNat)
    (h : push16With order v s = some p) : ¬ p.popUnderflows := by
  obtain ⟨ho, hsp, -⟩ := push16With_some h
  have hi : s.sp.toNat ≤ 0xE000 := hs.2
  rw [State.pushOverflows_iff] at ho
  rw [State.popUnderflows_iff, hsp]
  bv_omega

/-- The byte at the new SP is the one pushed second (R71). -/
theorem push16With_memRead_sp {order : StackByteOrder} {v : Word} {s p : State} (h : push16With order v s = some p) :
    p.memRead p.sp = secondPushed order v := by
  obtain ⟨-, hsp, -, -, -, -, -, -, hmem⟩ := push16With_some h
  rw [hsp, hmem, if_pos rfl]

/-- The byte above the new SP is the one pushed first (R71). -/
theorem push16With_memRead_sp_add_one {order : StackByteOrder} {v : Word} {s p : State}
    (h : push16With order v s = some p) : p.memRead (p.sp + 1#16) = firstPushed order v := by
  obtain ⟨-, hsp, -, -, -, -, -, -, hmem⟩ := push16With_some h
  have above : s.sp - 2#16 + 1#16 = s.sp - 1#16 := by bv_omega
  have apart : s.sp - 1#16 ≠ s.sp - 2#16 := by bv_omega
  rw [hsp, above, hmem, if_neg apart, if_pos rfl]

/-- The pop after a push gives the value, and the state of the push with the SP from before it (R76). -/
theorem pop16With_of_push16With {order : StackByteOrder} {v : Word} {s p : State} (hs : SpInRange s.sp.toNat)
    (h : push16With order v s = some p) : pop16With order p = some (v, { p with sp := s.sp }) := by
  cases hpop : pop16With order p with
  | none => exact absurd (pop16With_none.mp hpop) (push16With_not_popUnderflows hs h)
  | some wq =>
    obtain ⟨w, q⟩ := wq
    obtain ⟨-, hq, hw⟩ := pop16With_some hpop
    obtain ⟨-, hsp, -⟩ := push16With_some h
    have back : p.sp + 2#16 = s.sp := by rw [hsp]; bv_omega
    rw [push16With_memRead_sp h, push16With_memRead_sp_add_one h] at hw
    have value : w = v := by
      cases order with
      | highFirst | lowFirst => exact hw.trans (joinBytes_bytes v)
    rw [hq, back, value]

/-- Settles O29: the drop of SP by what a push does, the rest by the pop after a push, which writes SP alone. -/
theorem popAfterPushGivesTheValueBack : Obligations.PopAfterPushGivesTheValueBack := by
  intro order v s p hs h
  obtain ⟨-, hsp, -⟩ := push16With_some h
  exact ⟨hsp, { p with sp := s.sp }, pop16With_of_push16With hs h, rfl, fun _ => rfl⟩

/-! ### The push of one byte -/

/-- The stack test of a one-byte push, on the value of SP (R75). -/
theorem State.push8Overflows_iff (s : State) : s.push8Overflows ↔ s.sp.toNat < 0xC001 := by
  rw [State.push8Overflows, decide_eq_true_iff]
  show (s.sp.toNat : Int) - 1 < ((49152 : Nat) : Int) ↔ _
  omega

/-- A legal SP refuses a one-byte push at 0xC000 and nowhere else (R75). -/
theorem State.push8Overflows_of_legal {s : State} (h : SpInRange s.sp.toNat) :
    s.push8Overflows ↔ s.sp = 0xC000#16 := by
  have lo : 0xC000 ≤ s.sp.toNat := h.1
  rw [State.push8Overflows_iff]
  bv_omega

/-- A one-byte push that overflows is refused. -/
theorem push8_none {v : Byte} {s : State} : push8 v s = none ↔ s.push8Overflows := by
  by_cases h : s.push8Overflows <;> simp [push8, h]

/-- A one-byte push that does not overflow pushes the byte. -/
theorem push8_of_not_overflows {v : Byte} {s : State} (h : ¬ s.push8Overflows) : push8 v s = some (s.pushByte v) :=
  if_neg h

/-- A pushed byte changes no other address (R71, R75). -/
theorem State.pushByte_sameMemExcept (s : State) (v : Byte) : SameMemExcept [s.sp - 1#16] s (s.pushByte v) := by
  intro x hx
  rw [State.memRead_pushByte, if_neg fun e => hx (List.mem_singleton.mpr e)]

/-- A pushed byte leaves registers, flags and control (R71, R75). -/
theorem State.pushByte_sameData (s : State) (v : Byte) : SameData s (s.pushByte v) :=
  ⟨fun r => State.pushByte_reg s r v, rfl, rfl, rfl⟩

/-- Settles O30: at 0xC000 the stack test refuses; at every other legal SP the push is `pushByte`, whose effect and frame the lemmas above give. -/
theorem pushOfOneByte : Obligations.PushOfOneByte := by
  intro v s
  refine ⟨fun h => ?_, fun hs hne => ?_⟩
  · exact push8_none.mpr ((State.push8Overflows_iff s).mpr (by rw [h]; decide))
  · have room : ¬ s.push8Overflows := fun ho => hne ((State.push8Overflows_of_legal hs).mp ho)
    have written : (s.pushByte v).memRead (s.pushByte v).sp = v := by
      rw [State.memRead_pushByte, State.pushByte_sp, if_pos rfl]
    exact ⟨s.pushByte v, push8_of_not_overflows room, rfl, written, s.pushByte_sameMemExcept v, rfl,
      s.pushByte_sameData v⟩

end Sys2Proof.Machine
end

section
/-! The decoder (30_encoding.md R90 to R105): what it answers, by the table's row for the opcode byte, and the operands of the words it reads. -/

namespace Sys2Proof.Machine

/-! ### What the decoder answers -/

section
variable {op : Byte} {tail rest : List Byte} {i : Instr}

/-- A byte without a row is an unknown opcode (R102). -/
theorem decode_cons_of_no_entry (h : tableEntry op (tail.getD 0 0x00#8) (tail.getD 1 0x00#8) = none) :
    decode (op :: tail) = .unknownOpcode op := by
  simp only [decode, h]

/-- A row whose bytes are not all there misses an operand. -/
theorem decode_cons_of_short (h : tableEntry op (tail.getD 0 0x00#8) (tail.getD 1 0x00#8) = some i)
    (hl : tail.length + 1 < i.length) : decode (op :: tail) = .missingOperand op := by
  simp only [decode, h, if_pos hl]

/-- A row whose bytes are all there is its instruction, and what follows them is left (R90, R108). -/
theorem decode_cons_of_entry (h : tableEntry op (tail.getD 0 0x00#8) (tail.getD 1 0x00#8) = some i)
    (hl : ¬ tail.length + 1 < i.length) : decode (op :: tail) = .instr i (tail.drop (i.length - 1)) := by
  simp only [decode, h, if_neg hl]

/-- The decoder reads an instruction exactly when the table's row gives it and its bytes are all there (R90, R108). -/
theorem decode_cons_eq_instr_iff :
    decode (op :: tail) = .instr i rest ↔
      tableEntry op (tail.getD 0 0x00#8) (tail.getD 1 0x00#8) = some i ∧ i.length ≤ tail.length + 1 ∧
        tail.drop (i.length - 1) = rest := by
  constructor
  · intro hd
    cases h : tableEntry op (tail.getD 0 0x00#8) (tail.getD 1 0x00#8) with
    | none => rw [decode_cons_of_no_entry h] at hd; cases hd
    | some j =>
      by_cases hl : tail.length + 1 < j.length
      · rw [decode_cons_of_short h hl] at hd; cases hd
      · rw [decode_cons_of_entry h hl] at hd; cases hd
        exact ⟨rfl, Nat.le_of_not_lt hl, rfl⟩
  · rintro ⟨h, hl, rfl⟩
    exact decode_cons_of_entry h (Nat.not_lt_of_le hl)

/-- The decoder answers an unknown opcode exactly when the byte is not listed, whatever follows it (R102, R104). -/
theorem decode_cons_eq_unknownOpcode_iff : decode (op :: tail) = .unknownOpcode op ↔ op ∉ listedOpcodes := by
  rw [← tableEntry_none_iff_not_listed (b1 := tail.getD 0 0x00#8) (b2 := tail.getD 1 0x00#8)]
  refine ⟨fun hd => ?_, decode_cons_of_no_entry⟩
  cases h : tableEntry op (tail.getD 0 0x00#8) (tail.getD 1 0x00#8) with
  | none => rfl
  | some j =>
    by_cases hl : tail.length + 1 < j.length
    · rw [decode_cons_of_short h hl] at hd; cases hd
    · rw [decode_cons_of_entry h hl] at hd; cases hd

end

/-- An opcode byte and as many operand bytes as its row's length asks for decode as that row, whatever follows them. -/
theorem decodesAs_of_tableEntry {op : Byte} {operands : List Byte} {i : Instr}
    (h : tableEntry op (operands.getD 0 0x00#8) (operands.getD 1 0x00#8) = some i)
    (hl : i.length = operands.length + 1) : DecodesAs (op :: operands) i := by
  intro rest
  refine decode_cons_eq_instr_iff.mpr ⟨?_, by simp [hl], by simp [hl]⟩
  match operands, h, hl with
  | [], h, hl => exact tableEntry_length_one h hl
  | [_], h, hl => exact tableEntry_length_two h hl
  | [_, _], h, _ => exact h
  | _ :: _ :: _ :: _, _, hl =>
    have := i.length_cases
    simp only [List.length_cons] at hl
    omega

/-- Settles O8: the count and the distinctness by evaluation of the list, the rest by the decoder's own answer. -/
theorem everyByteIsListedOrUnknown : Obligations.EveryByteIsListedOrUnknown :=
  ⟨rfl, by decide, fun _ _ => decode_cons_eq_unknownOpcode_iff⟩

/-- Settles O13: the table's row fixes the length by the opcode byte, and the decoder drops that many bytes. -/
theorem lengthIsKnownFromTheOpcodeByte : Obligations.LengthIsKnownFromTheOpcodeByte := by
  refine ⟨fun bytes i rest h => ?_, fun op tail tail' i i' rest rest' h h' => ?_⟩
  · cases bytes with
    | nil => cases h
    | cons op tail =>
      obtain ⟨hrow, henough, rfl⟩ := decode_cons_eq_instr_iff.mp h
      have hlen := i.length_cases
      refine ⟨op, tail, rfl, lengthOf_of_tableEntry hrow, ?_, by omega, by omega⟩
      rw [List.length_cons, List.length_drop]
      omega
  · obtain ⟨hrow, -, -⟩ := decode_cons_eq_instr_iff.mp h
    obtain ⟨hrow', -, -⟩ := decode_cons_eq_instr_iff.mp h'
    exact Option.some.inj ((lengthOf_of_tableEntry hrow).symm.trans (lengthOf_of_tableEntry hrow'))

/-! ### The fields and the operand bytes -/

/-- Settles O10: each of the eight opcode bytes has its row in the table. -/
theorem registerFieldSelectsTheDestination : Obligations.RegisterFieldSelectsTheDestination := by
  intro n
  refine ⟨?_, ?_, ?_, ?_, ?_, ?_, ?_, ?_⟩ <;> exact decodesAs_of_tableEntry rfl rfl

/-- Settles O11: each of the sixteen opcode bytes has its row in the table. -/
theorem conditionFieldSelectsTheCondition : Obligations.ConditionFieldSelectsTheCondition := by
  intro b1 b2
  refine ⟨⟨?_, ?_, ?_, ?_⟩, ⟨?_, ?_, ?_, ?_⟩, ⟨?_, ?_, ?_, ?_⟩, ?_, ?_, ?_, ?_⟩ <;>
    exact decodesAs_of_tableEntry rfl rfl

/-- The value of a displacement byte by its unsigned value (R96). -/
theorem disp_eq_ite (b : Byte) :
    disp b = if b.toNat < 128 then (b.toNat : Int) else (b.toNat : Int) - 256 := by
  rw [disp, BitVec.toInt_eq_toNat_cond]
  split <;> split <;> omega

/-- Settles O14: the table's rows of C3 and 18, with the values of their operand bytes. -/
theorem immediateBytesHaveTheStatedValues : Obligations.ImmediateBytesHaveTheStatedValues := by
  intro b1 b2
  refine ⟨⟨imm16 b1 b2, decodesAs_of_tableEntry rfl rfl, ?_⟩, disp b1, decodesAs_of_tableEntry rfl rfl, disp_eq_ite b1⟩
  rw [imm16_toNat, Nat.mul_comm]

end Sys2Proof.Machine
end

section
/-! The restarts by their field ttt (30_encoding.md R99, R114; 41_control_flow.md R180), and what a call does where the stack has room. -/

namespace Sys2Proof.Machine

/-! ### A call where the stack has room -/

/-- Where the stack has room a call pushes the return address and jumps (R71, R160). -/
theorem callTo_calledTo {ret target : Word} {s : State} (h : ¬ s.pushOverflows) :
    ∃ t, callTo ret target s = .next t ∧ CalledTo target ret s t := by
  rcases callTo_cases ret target s with ⟨p, hp, hcall⟩ | ⟨ho, -⟩
  · obtain ⟨-, hsp, -, hflags, hrun, hfault, hreg, -, hmem⟩ := push16With_some hp
    have apart : s.sp - 1#16 ≠ s.sp - 2#16 := by bv_omega
    refine ⟨_, hcall, rfl, hsp, ⟨fun r => ?_, hflags, hrun, hfault⟩, ?_, ?_, fun x hx => ?_⟩
    · rw [State.setPc_reg, hreg]
    · rw [State.setPc_memRead, hmem, if_neg apart, if_pos rfl]; rfl
    · rw [State.setPc_memRead, hmem, if_pos rfl]; rfl
    · obtain ⟨h1, h2⟩ : x ≠ s.sp - 1#16 ∧ x ≠ s.sp - 2#16 := by simpa using hx
      rw [State.setPc_memRead, hmem, if_neg h2, if_neg h1]
  · exact absurd ho h

/-! ### The restart of each field value -/

/-- The restart a field ttt stands for (R99). -/
def rstOfField (ttt : BitVec 3) : Instr :=
  match ttt with
  | 0b000#3 => .rst00
  | 0b001#3 => .rst08
  | 0b010#3 => .rst10
  | 0b011#3 => .rst18
  | 0b100#3 => .rst20
  | 0b101#3 => .rst28
  | 0b110#3 => .rst30
  | 0b111#3 => .rst38

/-- The opcode byte of the pattern `11 ttt 111` (R99). -/
def rstOpcode (ttt : BitVec 3) : Byte := 0b11#2 ++ ttt ++ 0b111#3

/-- The encoder writes the pattern `11 ttt 111` (R99). -/
theorem encode_rstOfField : ∀ ttt : BitVec 3, encode (rstOfField ttt) = [rstOpcode ttt] := by decide

/-- The table reads the pattern `11 ttt 111` back (R99). -/
theorem tableEntry_rstOpcode :
    ∀ ttt : BitVec 3, tableEntry (rstOpcode ttt) 0x00#8 0x00#8 = some (rstOfField ttt) := by decide

theorem rstOfField_length : ∀ ttt : BitVec 3, (rstOfField ttt).length = 1 := by decide

theorem decodesAs_rstOpcode (ttt : BitVec 3) : DecodesAs [rstOpcode ttt] (rstOfField ttt) :=
  decodesAs_of_tableEntry (tableEntry_rstOpcode ttt) (rstOfField_length ttt)

/-- The field of the opcode byte is the field it was built from (R99). -/
theorem rstField_rstOpcode : ∀ ttt : BitVec 3, rstField (rstOpcode ttt) = ttt := by decide

/-- The opcode byte is 0xC7 plus the target (R114). -/
theorem rstOpcode_toNat : ∀ ttt : BitVec 3, (rstOpcode ttt).toNat = 0xC7 + ttt.toNat * 8 := by decide

/-- The written operand of a restart is its target (R114). -/
theorem rstOfOperand_eq_rstOfField : ∀ ttt : BitVec 3, rstOfOperand (ttt.toNat * 8) = some (rstOfField ttt) := by decide

/-- The meaning of the restart of a field is a call to that field's vector (R180). -/
theorem exec_rstOfField (ttt : BitVec 3) (s : State) : exec (rstOfField ttt) s = restart ttt s := by
  match ttt with
  | 0b000#3 | 0b001#3 | 0b010#3 | 0b011#3 | 0b100#3 | 0b101#3 | 0b110#3 | 0b111#3 => rfl

/-- The target of a restart is the vector index times 8 (R99, R180). -/
theorem rstTarget_toNat (ttt : BitVec 3) : (rstTarget ttt).toNat = ttt.toNat * 8 := by
  have h := ttt.isLt
  have stride : Config.rstStride % 2 ^ 16 = 8 := rfl
  rw [rstTarget, BitVec.toNat_mul, BitVec.toNat_setWidth, BitVec.toNat_ofNat, stride]
  omega

/-- Settles O12: the instruction is the restart of the field, a call, and a legal SP other than 0xC000 and 0xC001 has room for its push. -/
theorem restartFieldSelectsTheVector : Obligations.RestartFieldSelectsTheVector := by
  refine fun ttt => ⟨rstOfField ttt, decodesAs_rstOpcode ttt, fun s hs h0 h1 => ?_⟩
  have room : ¬ s.pushOverflows := fun ho => ((State.pushOverflows_of_legal hs).mp ho).elim h0 h1
  obtain ⟨t, ht, hpc, hsp, -⟩ := callTo_calledTo (ret := s.rstReturn) (target := rstTarget ttt) room
  exact ⟨t, (exec_rstOfField ttt s).trans ht, by rw [hpc, rstTarget_toNat], hsp⟩

/-- The eight operands are the targets of the eight field values (R114). -/
theorem exists_field_of_mem_vectors {n : Nat} (h : n ∈ [0x00, 0x08, 0x10, 0x18, 0x20, 0x28, 0x30, 0x38]) :
    ∃ ttt : BitVec 3, n = ttt.toNat * 8 := by
  revert n; decide

/-- An operand that is not one of the eight is none (R114). -/
theorem rstOfOperand_of_not_mem_vectors {n : Nat} (h : n ∉ [0x00, 0x08, 0x10, 0x18, 0x20, 0x28, 0x30, 0x38]) :
    rstOfOperand n = none := by
  unfold rstOfOperand
  split
  case h_9 => rfl
  all_goals exact absurd (by decide) h

/-- Settles O51: an operand among the eight is the target of a field, whose restart, byte and field the lemmas above give. -/
theorem restartOperandsAreTheEightVectors : Obligations.RestartOperandsAreTheEightVectors := by
  refine fun n => ⟨fun h => ?_, rstOfOperand_of_not_mem_vectors⟩
  obtain ⟨ttt, rfl⟩ := exists_field_of_mem_vectors h
  refine ⟨rstOfField ttt, rstOpcode ttt, rstOfOperand_eq_rstOfField ttt, encode_rstOfField ttt, ?_, rstOpcode_toNat ttt⟩
  rw [rstField_rstOpcode, Nat.mul_div_cancel _ (by decide)]

end Sys2Proof.Machine
end

section
/-! The instruction cycle (30_encoding.md R109) and what the host's Step returns (70_reset_and_hazards.md R282). -/

namespace Sys2Proof.Machine

/-! ### One step, by the bytes at PC -/

/-- When the bytes at PC decode, the instruction read is the table's row for them. -/
theorem State.entry_of_decode {s : State} {i : Instr} {rest : List Byte}
    (h : decode [s.memRead s.pc, s.memRead (s.pc + 1#16), s.memRead (s.pc + 2#16)] = .instr i rest) :
    s.entry = some i :=
  (decode_cons_eq_instr_iff.mp h).1

/-- A running core runs the instruction its bytes at PC decode to (R109). -/
theorem step_of_decode {s : State} {i : Instr} {rest : List Byte} (hr : s.runState = .running)
    (h : decode [s.memRead s.pc, s.memRead (s.pc + 1#16), s.memRead (s.pc + 2#16)] = .instr i rest) :
    step s = exec i s := by
  rw [step_running hr, State.entry_of_decode h]

/-- A running core takes UnknownOpcode at a byte the table does not list (R109, R231). -/
theorem step_of_not_listed {s : State} (hr : s.runState = .running) (h : s.memRead s.pc ∉ listedOpcodes) :
    step s = .next (s.raise .unknownOpcode) := by
  have hrow : s.entry = none := tableEntry_none_iff_not_listed.mpr h
  rw [step_running hr, hrow]

/-- A stopped core is left as it is (R109, R220, R238). -/
theorem step_stopped {s : State} (h : s.runState ≠ .running) : step s = .next s := by
  cases hr : s.runState with
  | running => exact absurd hr h
  | halted => exact step_halted hr
  | faulted => exact step_faulted hr

/-! ### What Step returns -/

theorem stepResult_eq_ok_iff {t : State} : stepResult t = .ok ↔ t.runState = .running := by
  cases h : t.runState <;> simp [stepResult, h]

theorem stepResult_eq_halted_iff {t : State} : stepResult t = .halted ↔ t.runState = .halted := by
  cases h : t.runState <;> simp [stepResult, h]

theorem stepResult_eq_faulted_iff {t : State} : stepResult t = .faulted t.fault ↔ t.runState = .faulted := by
  cases h : t.runState <;> simp [stepResult, h]

/-- Settles O19: the step answers `stepState s`, whatever the core does, and the three cases of the cycle say what that state is. -/
theorem stepIsTheInstructionCycle : Obligations.StepIsTheInstructionCycle := by
  intro s
  refine ⟨stepState s, stepResult (stepState s), step_eq_stepState s, fun i rest hr hd => ?_, fun hr hu => ?_,
    fun hr => stepState_of_step (step_stopped hr), rfl, stepResult_eq_ok_iff, stepResult_eq_halted_iff,
    stepResult_eq_faulted_iff⟩
  · exact (step_of_decode hr hd).symm.trans (step_eq_stepState s)
  · rw [stepState_of_step (step_of_not_listed hr hu)]
    exact faultTaken_raise s .unknownOpcode

end Sys2Proof.Machine
end

section
/-! The control flow family (41_control_flow.md R141 to R188): the rules of jumps, calls, restarts and returns, each proved once of any instruction that branches so, and the words of each. -/

namespace Sys2Proof.Machine

/-! ### Jumps -/

/-- An instruction that writes PC alone, by whether it is taken, obeys the rule of a jump (R142, R151). -/
theorem jumpRule_of_branch {i : Instr} {taken : Bool} {target next : Word} {s : State}
    (h : exec i s = if taken then .next (s.setPc target) else .next (s.setPc next)) : JumpRule i taken target next s := by
  cases taken with
  | true => exact ⟨_, h, jumpedTo_setPc s target⟩
  | false => exact ⟨_, h, jumpedTo_setPc s next⟩

/-- The value of the immediate, in the order of the statements (R95). -/
theorem imm16_toNat_eq_add_mul (b1 b2 : Byte) : (imm16 b1 b2).toNat = b1.toNat + b2.toNat * 256 := by
  rw [imm16_toNat, Nat.mul_comm]

/-- The value of a relative jump's target: PC + 2 + e modulo 65,536 (R96, R150). -/
theorem State.relTarget_toNat (s : State) (e : Int) :
    ((s.relTarget e).toNat : Int) = ((s.pc.toNat : Int) + 2 + e) % 65536 := by
  rw [State.relTarget, State.pcPlus, BitVec.toNat_add, BitVec.toNat_add, BitVec.toNat_ofNat, BitVec.toNat_ofInt]
  omega

/-- Settles O23: five rows of the table, each a branch between the immediate and PC + 3. -/
theorem absoluteJumpsWritePcAlone : Obligations.AbsoluteJumpsWritePcAlone := by
  intro b1 b2 s
  refine ⟨imm16 b1 b2, imm16_toNat_eq_add_mul b1 b2, ?_, ?_, ?_, ?_, ?_⟩ <;>
    exact ⟨decodesAs_of_tableEntry rfl rfl, jumpRule_of_branch rfl⟩

/-- Settles O24: five rows of the table, each a branch between the relative target, whose value `relTarget_toNat` gives, and PC + 2. -/
theorem relativeJumpsWritePcAlone : Obligations.RelativeJumpsWritePcAlone := by
  intro b1 s
  refine ⟨disp b1, s.relTarget (disp b1), disp_eq_ite b1, s.relTarget_toNat (disp b1), ?_, ?_, ?_, ?_, ?_⟩ <;>
    exact ⟨decodesAs_of_tableEntry rfl rfl, jumpRule_of_branch rfl⟩

/-! ### Calls and restarts -/

/-- Where the stack has no room a call takes StackOverflow (R72, R233). -/
theorem callTo_of_pushOverflows {ret target : Word} {s : State} (h : s.pushOverflows) :
    callTo ret target s = .next (s.raise .stackOverflow) := by
  rcases callTo_cases ret target s with ⟨p, hp, -⟩ | ⟨-, hcall⟩
  · exact absurd h (push16With_some hp).1
  · exact hcall

/-- An instruction that calls when taken and otherwise moves PC to the return address obeys the rule of a call (R161, R180). -/
theorem callRule_of_branch {i : Instr} {taken : Bool} {target ret : Word} {s : State}
    (h : exec i s = if taken then callTo ret target s else .next (s.setPc ret)) : CallRule i taken target ret s := by
  refine ⟨?_, ?_, ?_⟩ <;> rintro rfl
  · exact ⟨_, h, jumpedTo_setPc s ret⟩
  · intro hfull
    have overflows : s.pushOverflows := by
      rw [State.pushOverflows_iff]
      rcases hfull with e | e <;> rw [e] <;> decide
    exact ⟨_, h.trans (callTo_of_pushOverflows overflows), faultTaken_raise s .stackOverflow⟩
  · intro hs h0 h1
    have room : ¬ s.pushOverflows := fun ho => ((State.pushOverflows_of_legal hs).mp ho).elim h0 h1
    obtain ⟨t, hcall, called⟩ := callTo_calledTo (ret := ret) (target := target) room
    exact ⟨t, h.trans hcall, called⟩

/-- Settles O25: five rows of the table, each a call of the immediate, or else PC + 3. -/
theorem callsPushTheReturnAddressAndJump : Obligations.CallsPushTheReturnAddressAndJump := by
  intro b1 b2 s
  refine ⟨imm16 b1 b2, imm16_toNat_eq_add_mul b1 b2, ?_, ?_, ?_, ?_, ?_⟩ <;>
    exact ⟨decodesAs_of_tableEntry rfl rfl, callRule_of_branch rfl⟩

/-- The restart of a field value is a call, always taken, to the field's vector (R99, R180). -/
theorem callRule_rstOfField (ttt : BitVec 3) (s : State) :
    CallRule (rstOfField ttt) true (rstTarget ttt) (s.pc + 1#16) s :=
  callRule_of_branch (exec_rstOfField ttt s)

/-- Settles O27: the eight words and vectors are those of the eight field values. -/
theorem restartsPushAndJumpToTheirVectors : Obligations.RestartsPushAndJumpToTheirVectors := by
  intro s
  have rule : ∀ ttt, DecodesAs [rstOpcode ttt] (rstOfField ttt) ∧
      CallRule (rstOfField ttt) true (rstTarget ttt) (s.pc + 1#16) s :=
    fun ttt => ⟨decodesAs_rstOpcode ttt, callRule_rstOfField ttt s⟩
  exact ⟨rule 0b000#3, rule 0b001#3, rule 0b010#3, rule 0b011#3, rule 0b100#3, rule 0b101#3, rule 0b110#3, rule 0b111#3⟩

/-! ### Returns -/

/-- Where the stack has no value a return takes StackUnderflow (R74, R234). -/
theorem returnPop_of_popUnderflows {s : State} (h : s.popUnderflows) :
    returnPop s = .next (s.raise .stackUnderflow) := by
  rcases returnPop_cases s with ⟨v, p, hp, -⟩ | ⟨-, hret⟩
  · exact absurd h (pop16With_some hp).1
  · exact hret

/-- Where the stack has a value a return pops it into PC (R73, R170). -/
theorem returnPop_returned {s : State} (h : ¬ s.popUnderflows) : ∃ t, returnPop s = .next t ∧ Returned s t := by
  rcases returnPop_cases s with ⟨v, p, hp, hret⟩ | ⟨hu, -⟩
  · obtain ⟨-, rfl, hv⟩ := pop16With_some hp
    exact ⟨_, hret, hv, rfl, ⟨fun r => State.setPc_reg _ r v, rfl, rfl, rfl⟩, fun _ => rfl⟩
  · exact absurd hu h

/-- An instruction that returns when taken and otherwise advances PC by 1 obeys the rule of a return (R171). -/
theorem returnRule_of_branch {i : Instr} {taken : Bool} {s : State}
    (h : exec i s = if taken then returnPop s else .next (s.advance 1)) : ReturnRule i taken s := by
  refine ⟨?_, ?_, ?_⟩ <;> rintro rfl
  · exact ⟨_, h, jumpedTo_setPc s (s.pcPlus 1)⟩
  · intro hempty
    have underflows : s.popUnderflows := by
      rw [State.popUnderflows_iff]
      rcases hempty with e | e <;> rw [e] <;> decide
    exact ⟨_, h.trans (returnPop_of_popUnderflows underflows), faultTaken_raise s .stackUnderflow⟩
  · intro hs h0 h1
    have filled : ¬ s.popUnderflows := fun hu => ((State.popUnderflows_of_legal hs).mp hu).elim h0 h1
    obtain ⟨t, hret, returned⟩ := returnPop_returned filled
    exact ⟨t, h.trans hret, returned⟩

/-- Settles O26: five rows of the table, each a return, or else PC + 1. -/
theorem returnsPopPc : Obligations.ReturnsPopPc := by
  intro s
  refine ⟨?_, ?_, ?_, ?_, ?_⟩ <;> exact ⟨decodesAs_of_tableEntry rfl rfl, returnRule_of_branch rfl⟩

end Sys2Proof.Machine
end

section
/-! The load family (42_loads.md R201 to R210): the rule of the register loads, proved once of any register, and the store to the byte at HL. -/

namespace Sys2Proof.Machine

/-- An instruction that loads a register obeys the rule of a register load (R201). -/
theorem loadRule_of_loadReg {i : Instr} {r : Reg8} {n : Byte} {s : State} (h : exec i s = loadReg r n s) :
    LoadRule i r n s := by
  refine ⟨(s.setReg r n).advance 2, h, ?_, ?_, fun q hq => ?_, ?_, ?_, ⟨?_, ?_⟩, fun x => ?_⟩
  · rw [State.advance_reg, State.reg_setReg_same]
  · rw [State.advance_pc, State.pcPlus, State.setReg_pc]
  · rw [State.advance_reg, State.reg_setReg_other (h := hq)]
  · rw [State.advance_sp, State.setReg_sp]
  · rw [State.advance_flags, State.setReg_flags]
  · rw [State.advance_runState, State.setReg_runState]
  · rw [State.advance_fault, State.setReg_fault]
  · rw [State.advance_memRead, State.setReg_memRead]

/-- Settles O21: seven rows of the table, each a load of its register. -/
theorem loadImmediateWritesItsRegisterAlone : Obligations.LoadImmediateWritesItsRegisterAlone := by
  intro n s
  refine ⟨?_, ?_, ?_, ?_, ?_, ?_, ?_⟩ <;> exact ⟨decodesAs_of_tableEntry rfl rfl, loadRule_of_loadReg rfl⟩

/-- A written byte changes no other address (R54). -/
theorem State.memWrite_sameMemExcept (s : State) (x : Word) (v : Byte) : SameMemExcept [x] s (s.memWrite x v) :=
  fun _ hy => State.memRead_memWrite_other s v (List.ne_of_not_mem_cons hy)

/-- Settles O22: the row of 36, and the write at HL, whose effect and frame the lemmas of `memWrite` give and the advance of PC leaves. -/
theorem loadImmediateToMemoryWritesOneByte : Obligations.LoadImmediateToMemoryWritesOneByte := by
  intro n s
  have written : ((s.memWrite s.hlTarget n).advance 2).memRead s.hlTarget = n := by
    rw [State.advance_memRead, State.memRead_memWrite_same]
  have others : SameMemExcept [s.hlTarget] s ((s.memWrite s.hlTarget n).advance 2) :=
    s.memWrite_sameMemExcept s.hlTarget n
  have regs : SameRegs s ((s.memWrite s.hlTarget n).advance 2) := fun r => by
    rw [State.advance_reg, State.memWrite_reg]
  exact ⟨decodesAs_of_tableEntry rfl rfl, s.hl_toNat, _, rfl, written, others, rfl, rfl, regs, rfl, rfl, rfl⟩

end Sys2Proof.Machine
end

section
/-! The halt family (43_halt.md R220): the state `HALT` leaves, and the Run of a halted core. -/

namespace Sys2Proof.Machine

/-- A halted core returns Halted from Run at once, whatever the budget (R220, R283). -/
theorem run_halted {s : State} (h : s.runState = .halted) (budget : Nat) : run budget s = (.halted, s) := by
  cases budget with
  | zero | succ n => simp only [run, h]

/-- The host's Run leaves a halted core as it is and answers Halted (R220, R283). -/
theorem hostStep_run_halted {s : State} (h : s.runState = .halted) (budget : Nat) :
    hostStep (.run budget) s = (.ran .halted, s) := by
  simp only [hostStep, run_halted h]

/-- Settles O28: the row of 76; the halted state differs from the advanced one in the run state alone, and a core so halted neither steps nor runs. -/
theorem haltStopsTheCore : Obligations.HaltStopsTheCore := by
  refine ⟨decodesAs_of_tableEntry rfl rfl, fun s => ?_⟩
  exact ⟨{ s.advance 1 with runState := .halted }, rfl, rfl, rfl, rfl, rfl, rfl, fun r => s.advance_reg r 1,
    fun x => s.advance_memRead 1 x, step_halted rfl, hostStep_run_halted rfl⟩

end Sys2Proof.Machine
end

section
/-! The exceptions (60_exceptions.md R230 to R234): the cause of each fault, that a step of a running core takes a fault exactly when its cause is there, and that a fault changes the run state and the record alone. -/

namespace Sys2Proof.Machine

/-! ### A byte that pushes or pops is listed -/

theorem PushesNow.listed {op : Byte} {f : Flags} (h : PushesNow op f) : op ∈ listedOpcodes := by
  rcases h with hm | ⟨rfl, -⟩ | ⟨rfl, -⟩ | ⟨rfl, -⟩ | ⟨rfl, -⟩
  · revert op; decide
  all_goals decide

theorem PopsNow.listed {op : Byte} {f : Flags} (h : PopsNow op f) : op ∈ listedOpcodes := by
  rcases h with rfl | ⟨rfl, -⟩ | ⟨rfl, -⟩ | ⟨rfl, -⟩ | ⟨rfl, -⟩ <;> decide

/-- A listed byte at PC has its row in the table (R104). -/
theorem State.entry_of_listed {s : State} (h : s.memRead s.pc ∈ listedOpcodes) : ∃ i, s.entry = some i := by
  cases he : s.entry with
  | none => exact absurd h (tableEntry_none_iff_not_listed.mp he)
  | some i => exact ⟨i, rfl⟩

/-- The opcode byte alone is fetched when it is not listed (R102, R107). -/
theorem fetchAddresses_of_not_listed {s : State} (h : s.memRead s.pc ∉ listedOpcodes) : fetchAddresses s = [s.pc] := by
  have noLength : lengthOf (s.memRead s.pc) = none :=
    tableEntry_none.mp (tableEntry_none_iff_not_listed (b1 := 0x00#8) (b2 := 0x00#8) |>.mpr h)
  simp [fetchAddresses, fetchLength, noLength]

/-! ### The causes -/

/-- What makes a step of a running core take a fault of this kind (R230): the byte at PC, and for the stack faults the flags and the test of the stack engine. -/
def FaultCause (s : State) : FaultKind → Prop
  | .none => False
  | .unknownOpcode => s.memRead s.pc ∉ listedOpcodes
  | .stackOverflow => PushesNow (s.memRead s.pc) s.flags ∧ s.pushOverflows
  | .stackUnderflow => PopsNow (s.memRead s.pc) s.flags ∧ s.popUnderflows

theorem FaultCause.ne_none {s : State} {kind : FaultKind} (h : FaultCause s kind) : kind ≠ .none := by
  rintro rfl; exact h

/-- Where the cause of a fault is there, a running core takes the fault (R231, R233, R234). -/
theorem step_of_faultCause {s : State} {kind : FaultKind} (hr : s.runState = .running) (h : FaultCause s kind) :
    step s = .next (s.raise kind) := by
  cases kind with
  | none => exact h.elim
  | unknownOpcode => exact step_of_not_listed hr h
  | stackOverflow =>
    obtain ⟨pushes, full⟩ := h
    obtain ⟨i, hi⟩ := State.entry_of_listed pushes.listed
    obtain ⟨ret, target, hcall⟩ := exec_of_pushesNow hi pushes
    rw [step_running hr, hi]
    exact hcall.trans (callTo_of_pushOverflows full)
  | stackUnderflow =>
    obtain ⟨pops, empty⟩ := h
    obtain ⟨i, hi⟩ := State.entry_of_listed pops.listed
    rw [step_running hr, hi]
    exact (exec_of_popsNow hi pops).trans (returnPop_of_popUnderflows empty)

/-- A step of a running core takes a fault whose cause is there, or it leaves the core not FAULTED and the record as it was (R230, R232). -/
theorem step_fault_cases {s t : State} (hr : s.runState = .running) (h : step s = .next t) :
    (∃ kind, FaultCause s kind ∧ t = s.raise kind) ∨ (t.runState ≠ .faulted ∧ t.fault = s.fault) := by
  have unfaulted {u : State} (hu : u.runState = s.runState) : u.runState ≠ .faulted := by
    rw [hu, hr]; decide
  rcases step_cases h with ⟨stopped, -⟩ | ⟨-, norow, rfl⟩ | ⟨i, -, row, hx, -⟩
  · exact absurd hr stopped
  · exact .inl ⟨.unknownOpcode, tableEntry_none_iff_not_listed.mp norow, rfl⟩
  · cases State.entry_shape row with
    | load r hload => cases hload.symm.trans hx; exact .inr ⟨unfaulted (by simp), by simp⟩
    | store hstore => cases hstore.symm.trans hx; exact .inr ⟨unfaulted rfl, rfl⟩
    | jump target hjump => cases hjump.symm.trans hx; exact .inr ⟨unfaulted rfl, rfl⟩
    | halt hhalt => cases hhalt.symm.trans hx; exact .inr ⟨nofun, rfl⟩
    | push ret target hcall pushes =>
      rcases callTo_cases ret target s with ⟨p, hp, hnext⟩ | ⟨full, hnext⟩ <;> cases (hcall.trans hnext).symm.trans hx
      · obtain ⟨-, -, -, -, hrun, hfault, -⟩ := push16With_some hp
        exact .inr ⟨unfaulted hrun, hfault⟩
      · exact .inl ⟨.stackOverflow, ⟨pushes, full⟩, rfl⟩
    | pop hret pops =>
      rcases returnPop_cases s with ⟨v, p, hp, hnext⟩ | ⟨empty, hnext⟩ <;> cases (hret.trans hnext).symm.trans hx
      · obtain ⟨-, rfl, -⟩ := pop16With_some hp
        exact .inr ⟨unfaulted rfl, rfl⟩
      · exact .inl ⟨.stackUnderflow, ⟨pops, empty⟩, rfl⟩

section
variable {s t : State} (hr : s.runState = .running) (hq : s.fault.kind = .none) (h : step s = .next t)
include hr hq h

/-- From an empty record, a step records a kind of fault exactly when its cause is there (R230). -/
theorem step_fault_kind_iff {kind : FaultKind} (hk : kind ≠ .none) : t.fault.kind = kind ↔ FaultCause s kind := by
  constructor
  · rintro rfl
    rcases step_fault_cases hr h with ⟨k, cause, rfl⟩ | ⟨-, kept⟩
    · exact cause
    · exact absurd (kept ▸ hq) hk
  · intro cause
    cases (step_of_faultCause hr cause).symm.trans h
    rfl

/-- From an empty record, a step leaves the core FAULTED exactly when it records a fault (R32, R230). -/
theorem step_faulted_iff : t.runState = .faulted ↔ t.fault.kind ≠ .none := by
  rcases step_fault_cases hr h with ⟨k, cause, rfl⟩ | ⟨unfaulted, kept⟩
  · exact iff_of_true rfl cause.ne_none
  · exact iff_of_false unfaulted (not_not_intro (kept ▸ hq))

end

/-! ### The statements -/

/-- Settles O18: an unlisted byte has no length, so it is fetched alone, and it has no row, so the step raises the fault. -/
theorem unknownOpcodeIsTaken : Obligations.UnknownOpcodeIsTaken :=
  ⟨rfl, fun s hr hu =>
    ⟨fetchAddresses_of_not_listed hu, _, step_of_not_listed hr hu, faultTaken_raise s .unknownOpcode⟩⟩

/-- Settles O33: a step that leaves the core FAULTED raised a fault, and raising is all it did. -/
theorem faultsArePrecise : Obligations.FaultsArePrecise := by
  intro s t hr h hf
  rcases step_fault_cases hr h with ⟨kind, cause, rfl⟩ | ⟨unfaulted, -⟩
  · refine ⟨kind, cause.ne_none, faultTaken_raise s kind, ?_⟩
    rw [hostStep, stepState_of_step h, stepResult_eq_faulted_iff.mpr hf]
  · exact absurd hf unfaulted

/-- Settles O34: the recorded kind is the one whose cause is there, and under a legal SP the tests of the stack engine are two values of SP each. -/
theorem exactlyThreeFaultsWithTheStatedCauses : Obligations.ExactlyThreeFaultsWithTheStatedCauses := by
  refine ⟨⟨rfl, rfl, rfl⟩, fun s t inv hr h => ?_⟩
  have hq : s.fault.kind = .none := by rw [inv.quiet (by rw [hr]; decide)]; rfl
  have recorded {kind : FaultKind} (hk : kind ≠ .none) : t.fault.kind = kind ↔ FaultCause s kind :=
    step_fault_kind_iff hr hq h hk
  exact ⟨recorded (by decide),
    (recorded (by decide)).trans (and_congr_right fun _ => State.pushOverflows_of_legal inv.sp),
    (recorded (by decide)).trans (and_congr_right fun _ => State.popUnderflows_of_legal inv.sp),
    step_faulted_iff hr hq h⟩

end Sys2Proof.Machine
end

section
/-! The host interface (70_reset_and_hazards.md R270 to R284): what Load stores, the steps a Run takes, the setters and accessors, and that Reset alone leaves a stop. -/

namespace Sys2Proof.Machine

/-! ### Load (R272) -/

/-- An address that none of the stored bytes goes to reads as before (R54). -/
theorem storeBytes_memRead_other {x : Word} {bytes : List Byte} {addr : Word} (s : State)
    (h : ∀ i < bytes.length, x ≠ addr + BitVec.ofNat 16 i) : (storeBytes bytes addr s).memRead x = s.memRead x := by
  induction bytes generalizing addr s with
  | nil => rfl
  | cons v rest ih =>
    have head : x ≠ addr := by simpa using h 0 (Nat.succ_pos _)
    have tail : ∀ i < rest.length, x ≠ addr + 1#16 + BitVec.ofNat 16 i := fun i hi => by
      have := h (i + 1) (Nat.succ_lt_succ hi)
      rwa [Nat.add_comm, BitVec.ofNat_add, ← BitVec.add_assoc] at this
    calc (storeBytes rest (addr + 1#16) (s.memWrite addr v)).memRead x
      _ = (s.memWrite addr v).memRead x := ih _ tail
      _ = s.memRead x := s.memRead_memWrite_other v head

/-- Of at most 65,536 stored bytes, byte i is read i addresses after the first (R52, R54). -/
theorem storeBytes_memRead_getElem {bytes : List Byte} {addr : Word} (s : State) {i : Nat} {v : Byte}
    (fits : bytes.length ≤ 65536) (h : bytes[i]? = some v) :
    (storeBytes bytes addr s).memRead (addr + BitVec.ofNat 16 i) = v := by
  induction bytes generalizing addr s i with
  | nil => cases h
  | cons w rest ih =>
    have room : rest.length < 65536 := fits
    cases i with
    | zero =>
      have later : ∀ j < rest.length, addr + 0#16 ≠ addr + 1#16 + BitVec.ofNat 16 j := fun j hj => by bv_omega
      have first : w = v := by simpa using h
      rw [storeBytes, storeBytes_memRead_other _ later, BitVec.add_zero, State.memRead_memWrite_same, first]
    | succ j =>
      rw [storeBytes, Nat.add_comm, BitVec.ofNat_add, ← BitVec.add_assoc]
      exact ih _ room.le (by simpa using h)

theorem storeBytes_pc (bytes : List Byte) (addr : Word) (s : State) : (storeBytes bytes addr s).pc = s.pc := by
  rw [storeBytes_frame]

theorem storeBytes_sp (bytes : List Byte) (addr : Word) (s : State) : (storeBytes bytes addr s).sp = s.sp := by
  rw [storeBytes_frame]

/-- Storing bytes keeps registers, flags, the run state and the fault record. -/
theorem storeBytes_sameData (bytes : List Byte) (addr : Word) (s : State) : SameData s (storeBytes bytes addr s) := by
  rw [storeBytes_frame]
  exact ⟨fun r => by cases r <;> rfl, rfl, rfl, rfl⟩

section
variable {bytes : List Byte} {base : Nat} {s : State}

/-- Load refuses an image that passes the cartridge region, and changes nothing (R272). -/
theorem hostStep_load_refused (h : base + bytes.length > Config.cartSize) :
    hostStep (.load bytes base) s = (.loaded .programTooLarge, s) := by
  simp only [hostStep, loadProgram, if_pos h]

/-- Load stores an image that fits the cartridge region (R272). -/
theorem hostStep_load_ok (h : ¬ base + bytes.length > Config.cartSize) :
    hostStep (.load bytes base) s = (.loaded .ok, storeBytes bytes (BitVec.ofNat 16 base) s) := by
  simp only [hostStep, loadProgram, if_neg h]

/-- Load keeps the run state and the fault record, whether it refuses or not (R272). -/
theorem hostStep_load_sameControl : SameControl s (hostStep (.load bytes base) s).2 := by
  by_cases h : base + bytes.length > Config.cartSize
  · rw [hostStep_load_refused h]; exact ⟨rfl, rfl⟩
  · rw [hostStep_load_ok h]; exact (storeBytes_sameData _ _ s).2.2

end

/-- Settles O46: inside the region no address wraps, so an address outside the image is none of those stored to. -/
theorem loadCopiesTheImageOrRefuses : Obligations.LoadCopiesTheImageOrRefuses := by
  refine fun bytes base s => ⟨hostStep_load_refused, fun fits => ?_⟩
  refine ⟨_, hostStep_load_ok fits.not_gt, fun i v h => ?_, fun x outside => ?_, storeBytes_pc _ _ s,
    storeBytes_sp _ _ s, storeBytes_sameData _ _ s⟩
  · rw [BitVec.ofNat_add]
    exact storeBytes_memRead_getElem s (by omega) h
  · refine storeBytes_memRead_other s fun i hi hx => ?_
    have : x.toNat = base + i := by
      rw [hx, ← BitVec.ofNat_add, BitVec.toNat_ofNat, Nat.mod_eq_of_lt (by omega)]
    omega

/-! ### Run (R283) -/

/-- What a Run that left this state returns: its result says which of the three run states the core is in (R283). -/
def runResult (after : State) : RunResult :=
  match after.runState with
  | .running => .budgetExhausted
  | .halted => .halted
  | .faulted => .faulted after.fault

/-- A Run without budget answers by the state it finds (R283). -/
theorem run_zero (s : State) : run 0 s = (runResult s, s) := by
  cases h : s.runState <;> simp only [run, runResult, h]

/-- A Run of a stopped core takes no step, whatever the budget (R283). -/
theorem run_stopped {s : State} (h : s.runState ≠ .running) (budget : Nat) : run budget s = (runResult s, s) := by
  cases budget with
  | zero => exact run_zero s
  | succ n =>
    cases hr : s.runState with
    | running => exact absurd hr h
    | halted | faulted => simp only [run, runResult, hr]

/-- A Run of a running core with budget left takes a step and goes on (R283). -/
theorem run_succ_running {s : State} (h : s.runState = .running) (n : Nat) : run (n + 1) s = run n (stepState s) := by
  simp only [run, h]

/-- Run takes some number of steps within its budget, each from a running core, and stops short of the budget only at a core that has stopped (R283). -/
theorem run_eq_iterate (budget : Nat) (s : State) :
    ∃ k ≤ budget, run budget s = (runResult (stepState^[k] s), stepState^[k] s) ∧
      (∀ j < k, (stepState^[j] s).runState = .running) ∧ ((stepState^[k] s).runState = .running → k = budget) := by
  induction budget generalizing s with
  | zero => exact ⟨0, le_rfl, run_zero s, nofun, fun _ => rfl⟩
  | succ n ih =>
    by_cases hr : s.runState = .running
    · obtain ⟨k, hk, hrun, before, spent⟩ := ih (stepState s)
      refine ⟨k + 1, Nat.succ_le_succ hk, (run_succ_running hr n).trans hrun, fun j hj => ?_,
        fun h => congrArg Nat.succ (spent h)⟩
      cases j with
      | zero => exact hr
      | succ i => exact before i (Nat.lt_of_succ_lt_succ hj)
    · exact ⟨0, Nat.zero_le _, run_stopped hr _, nofun, fun h => absurd h hr⟩

/-- Settles O49: the state after k steps decides the result, and still RUNNING it is reached only by the whole budget. -/
theorem runStopsAtAHaltAFaultOrTheBudget : Obligations.RunStopsAtAHaltAFaultOrTheBudget := by
  intro budget s
  obtain ⟨k, hk, hrun, before, spent⟩ := run_eq_iterate budget s
  refine ⟨stepState^[k] s, runResult (stepState^[k] s), k, by simp only [hostStep, hrun], hk, rfl, before, ?_⟩
  cases h : (stepState^[k] s).runState with
  | halted => exact .inl ⟨by simp only [runResult, h], rfl⟩
  | faulted => exact .inr (.inl ⟨by simp only [runResult, h], rfl⟩)
  | running => exact .inr (.inr ⟨by simp only [runResult, h], rfl, spent h⟩)

/-! ### The setters (R281) and the accessors (R280) -/

/-- The one law of a flag's write: its own name reads the value written, every other flag reads as before (R281). -/
theorem Flags.get_set (f : Flags) (name other : FlagName) (v : Bool) :
    (f.set name v).get other = if other = name then v else f.get other := by
  cases name <;> cases other <;> rfl

/-- SetSP is accepted in the legal range of SP (R281). -/
theorem hostStep_setSp_accepted {s : State} {v : Nat} (h : SpInRange v) :
    hostStep (.setSp v) s = (.done, { s with sp := BitVec.ofNat 16 v }) :=
  if_pos h

/-- SetSP is refused outside the legal range of SP, with no change (R281). -/
theorem hostStep_setSp_refused {s : State} {v : Nat} (h : ¬ SpInRange v) : hostStep (.setSp v) s = (.refused, s) :=
  if_neg h

/-- SetSP keeps the run state and the fault record, whether it is accepted or not (R281). -/
theorem hostStep_setSp_sameControl {s : State} {v : Nat} : SameControl s (hostStep (.setSp v) s).2 := by
  by_cases h : SpInRange v
  · rw [hostStep_setSp_accepted h]; exact ⟨rfl, rfl⟩
  · rw [hostStep_setSp_refused h]; exact ⟨rfl, rfl⟩

/-- SP is the field of no register (R20). -/
theorem SameRegs.of_setSp (s : State) (w : Word) : SameRegs s { s with sp := w } := fun r => by cases r <;> rfl

/-- The flags are the field of no register (R20). -/
theorem SameRegs.of_setFlags (s : State) (f : Flags) : SameRegs s { s with flags := f } := fun r => by cases r <;> rfl

/-- Settles O47: each setter is one write of the state, whose value and frame its own lemmas give; HL as in O3. -/
theorem settersWriteOneThing : Obligations.SettersWriteOneThing := by
  intro s
  refine ⟨fun r v => ?_, fun v => ?_, fun v => ?_, fun v lo hi => ?_, fun v outside => ?_, fun name v => ?_⟩
  · exact ⟨_, rfl, by rw [State.reg_setReg_same, BitVec.toNat_ofNat], fun q hq => s.reg_setReg_other r _ hq,
      s.setReg_pc r _, s.setReg_sp r _, s.setReg_flags r _, ⟨s.setReg_runState r _, s.setReg_fault r _⟩,
      s.setReg_memRead r _⟩
  · obtain ⟨-, writes⟩ := hlIsAViewOfHAndL
    obtain ⟨t, ht, hh, hl, -, frame⟩ := writes s v
    exact ⟨t, ht, hh, hl, frame⟩
  · obtain ⟨-, hsp, hdata, hmem⟩ := jumpedTo_setPc s (BitVec.ofNat 16 v)
    exact ⟨_, rfl, BitVec.toNat_ofNat v 16, hsp, hdata, hmem⟩
  · have value : (BitVec.ofNat 16 v).toNat = v := by
      rw [BitVec.toNat_ofNat, Nat.mod_eq_of_lt (by omega)]
    exact ⟨_, hostStep_setSp_accepted ⟨lo, hi⟩, value, rfl, ⟨.of_setSp s _, rfl, rfl, rfl⟩, fun _ => rfl⟩
  · have illegal : ¬ SpInRange v := fun ⟨lo, hi⟩ => outside.elim lo.not_gt hi.not_gt
    exact hostStep_setSp_refused illegal
  · exact ⟨_, rfl, (s.flags.get_set name name v).trans (if_pos rfl),
      fun other h => (s.flags.get_set name other v).trans (if_neg h), rfl, rfl, .of_setFlags s _, ⟨rfl, rfl⟩,
      fun _ => rfl⟩

/-- An address the host gives is reduced modulo 65,536 (R52, R280). -/
theorem State.memRead_ofNat (s : State) (a : Nat) :
    s.memRead (BitVec.ofNat 16 a) = Memory.read s.mem (a % 65536) := by
  rw [State.memRead, BitVec.toNat_ofNat]

/-- Settles O48: each accessor answers a field or a view of the state it leaves; HL by `hl_toNat`, the memory address reduced. -/
theorem accessorsReadAndChangeNothing : Obligations.AccessorsReadAndChangeNothing := fun s =>
  ⟨fun _ => rfl, ⟨s.hl, rfl, s.hl_toNat⟩, rfl, rfl, fun _ => rfl,
    fun a => by rw [hostStep, State.memRead_ofNat], rfl, rfl⟩

/-! ### Reset (R270) -/

/-- No operation of the host but Reset changes the run state or the fault record of a stopped core (R270). -/
theorem hostStep_sameControl_of_stopped {op : HostOp} {s : State} (hop : op ≠ .reset) (hs : s.runState ≠ .running) :
    SameControl s (hostStep op s).2 := by
  cases op with
  | reset => exact absurd rfl hop
  | load bytes base => exact hostStep_load_sameControl
  | step => rw [hostStep, stepState_of_step (step_stopped hs)]; exact ⟨rfl, rfl⟩
  | run budget => rw [hostStep, run_stopped hs]; exact ⟨rfl, rfl⟩
  | setReg r v => exact ⟨s.setReg_runState r _, s.setReg_fault r _⟩
  | setSp v => exact hostStep_setSp_sameControl
  | setHl v | setPc v | setFlag name v => exact ⟨rfl, rfl⟩
  | readReg r | readHl | readPc | readSp | readFlag name | readMem a | readRunState | readFault => exact ⟨rfl, rfl⟩

/-- Settles O2: Reset leaves the reset state of O1 from any state; the other operations one by one, and a stopped core's step. -/
theorem onlyResetLeavesHaltedOrFaulted : Obligations.OnlyResetLeavesHaltedOrFaulted :=
  ⟨fun _ => ⟨State.reset, rfl, resetLeavesTheStatedValues⟩, fun _ _ => hostStep_sameControl_of_stopped,
    fun _ => step_stopped⟩

end Sys2Proof.Machine
end

section
/-! The decoder and the encoder together (30_encoding.md R90 to R108): the table reads back every word the encoder writes, and the encoder writes back every word the table reads. -/

namespace Sys2Proof.Machine

/-! ### Reading back what the encoder writes -/

/-- The encoder writes at least the opcode byte (R90). -/
theorem encode_eq_cons (i : Instr) : ∃ op operands, encode i = op :: operands := by
  cases i <;> exact ⟨_, _, rfl⟩

/-- The encoder writes as many bytes as the encoded length says (R90). -/
theorem encode_length (i : Instr) : (encode i).length = i.length := by
  cases i <;> rfl

/-- The table's row for the bytes the encoder writes is the instruction: an address is read back from its two bytes, a displacement in range from its byte (R95, R96, R100). -/
theorem tableEntry_of_encode {i : Instr} {op : Byte} {operands : List Byte} (hw : i.wf = true)
    (h : encode i = op :: operands) :
    tableEntry op (operands.getD 0 0x00#8) (operands.getD 1 0x00#8) = some i := by
  cases i <;> cases h
  case jp nn | jpNZ nn | jpZ nn | jpNC nn | jpC nn | call nn | callNZ nn | callZ nn | callNC nn | callC nn =>
    exact congrArg (some ∘ _) (imm16_bytes nn)
  case jr e | jrNZ e | jrZ e | jrNC e | jrC e =>
    exact congrArg (some ∘ _) (disp_dispByte (of_decide_eq_true hw))
  all_goals rfl

/-- Settles O6: the encoder writes an opcode byte and its operands, whose row is the instruction, in the length of that row. -/
theorem decodeOfEncodeIsTheInstruction : Obligations.DecodeOfEncodeIsTheInstruction := by
  intro i rest hw
  obtain ⟨op, operands, h⟩ := encode_eq_cons i
  have len : i.length = operands.length + 1 := by rw [← encode_length, h, List.length_cons]
  rw [h]
  exact decodesAs_of_tableEntry (tableEntry_of_encode hw h) len rest

/-! ### Writing back what the decoder reads -/

/-- A row of the table is a well-formed instruction, and its encoding is the opcode byte and the operand bytes its length asks for (R90, R95, R96). -/
theorem encode_of_tableEntry {op b1 b2 : Byte} {i : Instr} (h : tableEntry op b1 b2 = some i) :
    i.wf = true ∧ encode i = op :: [b1, b2].take (i.length - 1) := by
  have inRange : decide (DispInRange (disp b1)) = true := decide_eq_true (disp_inRange b1)
  unfold tableEntry at h
  split at h <;> cases h
  -- the rows with an address, those with a displacement, and those with a byte or no operand
  case h_9 | h_10 | h_11 | h_12 | h_13 | h_19 | h_20 | h_21 | h_22 | h_23 =>
    refine ⟨rfl, ?_⟩
    rw [encode, loByte_imm16, hiByte_imm16]
    rfl
  case h_14 | h_15 | h_16 | h_17 | h_18 =>
    refine ⟨inRange, ?_⟩
    rw [encode, dispByte_disp]
    rfl
  all_goals exact ⟨rfl, rfl⟩

/-- The first bytes of a list, read with a default as the decoder reads them, and the bytes after them are the list. -/
theorem take_getD_append_drop {tail : List Byte} {k : Nat} (hk : k ≤ 2) (hl : k ≤ tail.length) (d : Byte) :
    [tail.getD 0 d, tail.getD 1 d].take k ++ tail.drop k = tail := by
  match tail, k, hk, hl with
  | _, 0, _, _ => rfl
  | _ :: _, 1, _, _ => rfl
  | _ :: _ :: _, 2, _, _ => rfl

/-- Settles O7: the instruction read is the row of the opcode byte, whose encoding is that byte and the operand bytes read, and the rest is what was left. -/
theorem encodeOfDecodeIsTheBytes : Obligations.EncodeOfDecodeIsTheBytes := by
  intro bytes i rest h
  cases bytes with
  | nil => cases h
  | cons op tail =>
    obtain ⟨row, enough, rfl⟩ := decode_cons_eq_instr_iff.mp h
    obtain ⟨wf, written⟩ := encode_of_tableEntry row
    have len := i.length_cases
    refine ⟨wf, ?_⟩
    rw [written, List.cons_append, take_getD_append_drop (by omega) (by omega)]

/-- Settles O9: each word's opcode byte has its row in the table, with the values of its operand bytes. -/
theorem writtenOutWordsDecode : Obligations.WrittenOutWordsDecode := by
  refine ⟨?_, ?_, ?_, ?_, ?_, ?_, ?_, ?_, ?_, ?_, ?_, ?_, ?_⟩ <;> exact decodesAs_of_tableEntry rfl rfl

end Sys2Proof.Machine
end

section
/-! Memory as data (20_memory.md R50) and the byte view of the flags (10_state.md R30). -/

namespace Sys2Proof.Machine

/-! ### The cells of a canonical memory -/

/-- A byte other than the unlisted one is read only where a cell lists it. -/
theorem Memory.mem_of_read {x : Nat} {v : Byte} (hv : v ≠ Config.unlistedByte) :
    ∀ {m : Memory}, Memory.read m x = v → (x, v) ∈ m
  | [], h => absurd h.symm hv
  | (k, w) :: rest, h => by
    by_cases hk : k = x
    · have here : w = v := (if_pos hk).symm.trans h
      rw [hk, here]
      exact List.mem_cons_self
    · have later : Memory.read rest x = v := (if_neg hk).symm.trans h
      exact List.mem_cons_of_mem _ (Memory.mem_of_read hv later)

/-- A listed byte is read at its address when the addresses rise. -/
theorem Memory.read_of_mem {x : Nat} {v : Byte} :
    ∀ {m : Memory}, m.Pairwise (fun p q => p.1 < q.1) → (x, v) ∈ m → Memory.read m x = v
  | (k, w) :: rest, hp, hm => by
    obtain ⟨below, rising⟩ := List.pairwise_cons.mp hp
    rcases List.mem_cons.mp hm with h | h
    · cases h
      exact if_pos rfl
    · exact (if_neg (below _ h).ne).trans (Memory.read_of_mem rising h)

/-- The cells of a canonical memory are exactly the addresses of the array that do not read as the unlisted byte, with what they read. -/
theorem Memory.mem_iff_read {m : Memory} (h : Memory.wf m) {x : Nat} {v : Byte} :
    (x, v) ∈ m ↔ x < Config.memSize ∧ v ≠ Config.unlistedByte ∧ Memory.read m x = v := by
  obtain ⟨rising, cells⟩ := h
  constructor
  · intro hm
    obtain ⟨inside, listed⟩ := cells _ hm
    exact ⟨inside, listed, Memory.read_of_mem rising hm⟩
  · rintro ⟨-, hv, hr⟩
    exact Memory.mem_of_read hv hr

/-- Settles O5: memories that read the same have the same cells, and lists of rising addresses with the same cells are equal. -/
theorem canonicalMemoriesAgreeOnlyIfEqual : Obligations.CanonicalMemoriesAgreeOnlyIfEqual := by
  intro m n hm hn agree
  have antisymm : Std.Antisymm fun p q : Host.Cell => p.1 < q.1 := ⟨fun _ _ h h' => absurd h' h.not_gt⟩
  have irrefl : Std.Irrefl fun p q : Host.Cell => p.1 < q.1 := ⟨fun _ => lt_irrefl _⟩
  refine List.Pairwise.eq_of_mem_iff hm.1 hn.1 fun ⟨x, v⟩ => ?_
  rw [Memory.mem_iff_read hm, Memory.mem_iff_read hn]
  exact and_congr_right fun inside => by rw [agree x inside]

/-! ### The byte view of the flags -/

/-- Settles O4: the sixteen values of the four flags, by evaluation. -/
theorem flagByteHasTheStatedBits : Obligations.FlagByteHasTheStatedBits := by
  rintro ⟨z, n, h, c⟩
  revert z n h c
  decide

end Sys2Proof.Machine
end

section
/-! The fetch (30_encoding.md R107, R109): which addresses are read, and that a step runs the instruction whose bytes stand at PC, however they came there. -/

namespace Sys2Proof.Machine

/-! ### The addresses fetched -/

/-- The fetch unit reads as many bytes as the row at PC is long (R105, R107). -/
theorem fetchLength_of_entry {s : State} {i : Instr} (h : s.entry = some i) : fetchLength s = i.length := by
  rw [fetchLength, lengthOf_of_tableEntry h, Option.getD_some]

/-- The fetch unit reads 1, 2 or 3 bytes (R107). -/
theorem fetchLength_cases (s : State) : fetchLength s = 1 ∨ fetchLength s = 2 ∨ fetchLength s = 3 := by
  cases h : s.entry with
  | none =>
    have noLength : lengthOf (s.memRead s.pc) = none := tableEntry_none.mp h
    exact .inl (by rw [fetchLength, noLength, Option.getD_none])
  | some i => rw [fetchLength_of_entry h]; exact i.length_cases

/-- The addresses fetched are the first of PC, PC + 1 and PC + 2 (R107). -/
theorem fetchAddresses_eq_take (s : State) :
    fetchAddresses s = [s.pc, s.pc + 1#16, s.pc + 2#16].take (fetchLength s) := by
  rw [fetchAddresses]
  rcases fetchLength_cases s with h | h | h <;> rw [h] <;> simp [List.range_succ, State.pcPlus]

/-- The first byte fetched is the one at PC (R107). -/
theorem fetchBytes_head? (s : State) : (fetchBytes s).head? = some (s.memRead s.pc) := by
  rw [fetchBytes, fetchAddresses_eq_take]
  rcases fetchLength_cases s with h | h | h <;> rw [h] <;> rfl

/-- Settles O17: the addresses are the first of three different ones, as many as the row is long. -/
theorem fetchReadsExactlyTheInstruction : Obligations.FetchReadsExactlyTheInstruction := by
  refine fun s => ⟨?_, fun i rest h => ?_, fetchAddresses_of_not_listed⟩
  · have different : [s.pc, s.pc + 1#16, s.pc + 2#16].Nodup := by
      simp only [List.nodup_cons, List.mem_cons, List.not_mem_nil, or_false, not_or, not_false_eq_true, List.nodup_nil,
        and_true]
      exact ⟨⟨by bv_omega, by bv_omega⟩, by bv_omega⟩
    rw [fetchAddresses_eq_take]
    exact different.sublist (List.take_sublist _ _)
  · rw [fetchAddresses_eq_take, fetchLength_of_entry (State.entry_of_decode h)]

/-! ### The instruction that a step runs -/

/-- Settles O15: a step of a running core goes by the table's row, which is the instruction decoded. -/
theorem stepRunsTheDecodedInstruction : Obligations.StepRunsTheDecodedInstruction :=
  fun _ _ _ => step_of_decode

/-- Up to three bytes that stand in memory from PC on begin the three bytes that the decoder is given (R52, R107). -/
theorem bytes_begin_window {s : State} {bytes : List Byte} (short : bytes.length ≤ 3)
    (stand : ∀ (k : Nat) (v : Byte), bytes[k]? = some v → s.memRead (s.pc + BitVec.ofNat 16 k) = v) :
    bytes <+: [s.memRead s.pc, s.memRead (s.pc + 1#16), s.memRead (s.pc + 2#16)] := by
  refine List.prefix_iff_getElem?.mpr fun k hk => ?_
  have there := stand k _ (List.getElem?_eq_getElem hk)
  have inside : k < 3 := by omega
  generalize bytes[k] = v at there ⊢
  match k, inside with
  | 0, _ => simpa using there
  | 1, _ => simpa using there
  | 2, _ => simpa using there

/-- Settles O16: the encoding begins the three bytes at PC, and decodes as the instruction whatever follows it. -/
theorem stepRunsTheInstructionWhoseBytesStandAtPc : Obligations.StepRunsTheInstructionWhoseBytesStandAtPc := by
  intro s i hr hw stand
  have short : (encode i).length ≤ 3 := by
    have := i.length_cases
    rw [encode_length]
    omega
  obtain ⟨rest, whole⟩ := bytes_begin_window short stand
  exact step_of_decode hr (whole ▸ decodeOfEncodeIsTheInstruction i rest hw)

/-- The bytes of a word placed for the next step stand in memory from PC on (R107). -/
theorem withFetchWord_memRead (s : State) (nbits w : Nat) {k : Nat} {v : Byte} (h : (wordBytes nbits w)[k]? = some v) :
    (s.withFetchWord nbits w).memRead ((s.withFetchWord nbits w).pc + BitVec.ofNat 16 k) = v := by
  have pc : (s.withFetchWord nbits w).pc = s.pc := storeBytes_pc _ _ s
  rw [pc]
  exact storeBytes_memRead_getElem s (Nat.le_add_left 3 65533) h

/-- A word is read as an instruction when the decoder reads that instruction from its bytes. -/
theorem decode_of_decodeTableWord {nbits w : Nat} {i : Instr} (h : decodeTableWord nbits w = some i) :
    ∃ rest, decode (wordBytes nbits w) = .instr i rest := by
  unfold decodeTableWord at h
  split at h
  case h_1 j rest hd => cases h; exact ⟨rest, hd⟩
  all_goals cases h

/-- Settles O20: the placed word's three bytes are those at PC, and they decode as the instruction. -/
theorem stepRunsThePlacedWord : Obligations.StepRunsThePlacedWord := by
  intro s nbits w i h
  obtain ⟨rest, hd⟩ := decode_of_decodeTableWord h
  have begins := bytes_begin_window (bytes := wordBytes nbits w) le_rfl fun _ _ => withFetchWord_memRead s nbits w
  exact step_of_decode rfl (begins.eq_of_length rfl ▸ hd)

end Sys2Proof.Machine
end

section
/-! What a step does (30_encoding.md R109), with the opcode byte that made it do so, and what every step keeps: the invariant, the record of a stop, the flags, and the frames of SP, the registers and memory. -/

namespace Sys2Proof.Machine

/-! ### Everything a step of a running core can do -/

/-- What a step of a running core does, and the opcode byte at PC where it says more than the next state. -/
inductive RunningStep (s : State) : State → Prop where
  | load (r : Reg8) (op : s.memRead s.pc = loadOpcode r) :
      RunningStep s ((s.setReg r (s.memRead (s.pcPlus 1))).advance 2)
  | store (op : s.memRead s.pc = 0x36#8) :
      RunningStep s ((s.memWrite s.hlTarget (s.memRead (s.pcPlus 1))).advance 2)
  | jump (target : Word) : RunningStep s (s.setPc target)
  | push (ret target : Word) (p : State) (op : PushesNow (s.memRead s.pc) s.flags) (pushed : push16 ret s = some p) :
      RunningStep s (p.setPc target)
  | pop (v : Word) (p : State) (popped : pop16 s = some (v, p)) : RunningStep s (p.setPc v)
  | halt : RunningStep s { s.advance 1 with runState := .halted }
  | fault (kind : FaultKind) (cause : FaultCause s kind) : RunningStep s (s.raise kind)

/-- An instruction that its row of the table gives to a running core does one of these. -/
theorem runningStep_of_entry {s t : State} {i : Instr} (row : s.entry = some i) (h : exec i s = .next t) :
    RunningStep s t := by
  cases State.entry_shape row with
  | load r hx op => cases hx.symm.trans h; exact .load r op
  | store hx op => cases hx.symm.trans h; exact .store op
  | jump target hx => cases hx.symm.trans h; exact .jump target
  | halt hx => cases hx.symm.trans h; exact .halt
  | push ret target hx op =>
    rcases callTo_cases ret target s with ⟨p, pushed, hnext⟩ | ⟨full, hnext⟩ <;> cases (hx.trans hnext).symm.trans h
    · exact .push ret target p op pushed
    · exact .fault .stackOverflow ⟨op, full⟩
  | pop hx op =>
    rcases returnPop_cases s with ⟨v, p, popped, hnext⟩ | ⟨empty, hnext⟩ <;> cases (hx.trans hnext).symm.trans h
    · exact .pop v p popped
    · exact .fault .stackUnderflow ⟨op, empty⟩

/-- A step leaves a stopped core as it is, and of a running core it is one of these (R109). -/
theorem step_inversion {s t : State} (h : step s = .next t) :
    (s.runState ≠ .running ∧ t = s) ∨ (s.runState = .running ∧ RunningStep s t) := by
  rcases step_cases h with stopped | ⟨hr, norow, rfl⟩ | ⟨i, hr, row, hx, -⟩
  · exact .inl stopped
  · exact .inr ⟨hr, .fault .unknownOpcode (tableEntry_none_iff_not_listed.mp norow)⟩
  · exact .inr ⟨hr, runningStep_of_entry row hx⟩

/-- What holds of a state unchanged and of every step of a running core holds of every step. -/
theorem step_induction {P : State → State → Prop} (refl : ∀ s, P s s) (running : ∀ {s t}, RunningStep s t → P s t)
    {s t : State} (h : step s = .next t) : P s t := by
  rcases step_inversion h with ⟨-, rfl⟩ | ⟨-, hs⟩
  · exact refl _
  · exact running hs

/-! ### The invariant (R27, R32, R36) -/

/-- A state that keeps the run state and the record needs a canonical memory and a legal SP alone. -/
theorem State.Inv.of_sameControl {s t : State} (inv : s.Inv) (mem : Memory.wf t.mem) (sp : SpInRange t.sp.toNat)
    (control : SameControl s t) : t.Inv := by
  obtain ⟨hrun, hfault⟩ := control
  exact ⟨mem, sp, by rw [hrun, hfault]; exact inv.quiet, by rw [hrun, hfault]; exact inv.named⟩

/-- A fault with a name keeps the invariant (R32, R232). -/
theorem State.Inv.raise {s : State} (inv : s.Inv) {kind : FaultKind} (named : kind ≠ .none) : (s.raise kind).Inv :=
  ⟨inv.mem, inv.sp, fun unfaulted => absurd rfl unfaulted, fun _ => named⟩

/-- Every step of a running core keeps the invariant: a push and a pop leave a legal SP, a write a canonical memory, and a fault has a name. -/
theorem RunningStep.inv {s t : State} (inv : s.Inv) (hr : s.runState = .running) (h : RunningStep s t) : t.Inv := by
  cases h with
  | load r op =>
    exact inv.of_sameControl (by simpa using inv.mem) (by simpa using inv.sp) ⟨by simp, by simp⟩
  | store op => exact inv.of_sameControl (State.memWrite_wf inv.mem _ _) inv.sp ⟨rfl, rfl⟩
  | jump target => exact inv.of_sameControl inv.mem inv.sp ⟨rfl, rfl⟩
  | push ret target p op pushed =>
    obtain ⟨-, -, -, -, hrun, hfault, -, wf, -⟩ := push16With_some pushed
    have sp := push16With_sp inv.sp pushed
    exact inv.of_sameControl (wf inv.mem) sp ⟨hrun, hfault⟩
  | pop v p popped =>
    have sp := pop16With_sp inv.sp popped
    obtain ⟨-, rfl, -⟩ := pop16With_some popped
    exact inv.of_sameControl inv.mem sp ⟨rfl, rfl⟩
  | halt => exact ⟨inv.mem, inv.sp, fun _ => inv.quiet (by rw [hr]; decide), nofun⟩
  | fault kind cause => exact inv.raise cause.ne_none

/-- Settles O36: a stopped core is left as it is, and every step of a running core keeps the invariant. -/
theorem stepKeepsTheInvariant : Obligations.StepKeepsTheInvariant := by
  intro s t inv h
  rcases step_inversion h with ⟨-, rfl⟩ | ⟨hr, hs⟩
  · exact inv
  · exact hs.inv inv hr

/-- Settles O35: the memory lists no cell, the other clauses by evaluation. -/
theorem resetMeetsTheInvariant : Obligations.ResetMeetsTheInvariant :=
  ⟨⟨by decide, by decide, fun _ => rfl, nofun⟩, nofun⟩

/-! ### The record of a stop (R32) -/

/-- Settles O38: a step that leaves a running core FAULTED raised the fault, which records the PC and the byte there. -/
theorem stepKeepsTheFaultRecordTrue : Obligations.StepKeepsTheFaultRecordTrue := by
  intro s t recorded h
  by_cases hr : s.runState = .running
  · rcases step_fault_cases hr h with ⟨kind, -, rfl⟩ | ⟨unfaulted, -⟩
    · exact fun _ => ⟨rfl, rfl⟩
    · exact fun faulted => absurd faulted unfaulted
  · cases (step_stopped hr).symm.trans h
    exact recorded

/-! ### The flags (R29) -/

theorem RunningStep.flags {s t : State} (h : RunningStep s t) : t.flags = s.flags := by
  cases h with
  | load r op => simp
  | push ret target p op pushed =>
    obtain ⟨-, -, -, hflags, -⟩ := push16With_some pushed
    exact hflags
  | pop v p popped =>
    obtain ⟨-, rfl, -⟩ := pop16With_some popped
    rfl
  | store op | jump target | halt | fault kind cause => rfl

/-- Settles O39: no step of a running core writes a flag. -/
theorem noStepWritesAFlag : Obligations.NoStepWritesAFlag :=
  fun _ _ => step_induction (P := fun s t => t.flags = s.flags) (fun _ => rfl) RunningStep.flags

/-! ### SP (R27) -/

theorem RunningStep.sp {s t : State} (h : RunningStep s t) :
    t.sp = s.sp ∨ t.sp = s.sp - 2#16 ∨ t.sp = s.sp + 2#16 := by
  cases h with
  | load r op => simp
  | push ret target p op pushed =>
    obtain ⟨-, hsp, -⟩ := push16With_some pushed
    exact .inr (.inl hsp)
  | pop v p popped =>
    obtain ⟨-, rfl, -⟩ := pop16With_some popped
    exact .inr (.inr rfl)
  | store op | jump target | halt | fault kind cause => exact .inl rfl

/-- Settles O40: a push lowers SP by two and a pop raises it by two, which modulo 65,536 keeps the parity. -/
theorem spMovesByTwoOrNotAtAll : Obligations.SpMovesByTwoOrNotAtAll := by
  intro s t h
  have moved := step_induction (P := fun s t => t.sp = s.sp ∨ t.sp = s.sp - 2#16 ∨ t.sp = s.sp + 2#16)
    (fun _ => .inl rfl) RunningStep.sp h
  refine ⟨moved, ?_⟩
  rcases moved with e | e | e
  · rw [e]
  · rw [e]; bv_omega
  · rw [e]; bv_omega

/-! ### The registers (R22) -/

/-- A register that a step of a running core changes was loaded by its own LD with the operand byte. -/
theorem RunningStep.reg_changed {s t : State} {r : Reg8} (h : RunningStep s t) (changed : t.reg r ≠ s.reg r) :
    s.memRead s.pc = loadOpcode r ∧ t.reg r = s.memRead (s.pcPlus 1) := by
  cases h with
  | load q op =>
    rw [State.advance_reg] at changed
    by_cases hq : r = q
    · subst hq
      exact ⟨op, by rw [State.advance_reg, State.reg_setReg_same]⟩
    · exact absurd (s.reg_setReg_other q _ hq) changed
  | store op => exact absurd (by rw [State.advance_reg, State.memWrite_reg]) changed
  | jump target => exact absurd (s.setPc_reg r target) changed
  | push ret target p op pushed =>
    obtain ⟨-, -, -, -, -, -, hreg, -⟩ := push16With_some pushed
    exact absurd (by rw [State.setPc_reg, hreg]) changed
  | pop v p popped =>
    obtain ⟨-, rfl, -⟩ := pop16With_some popped
    exact absurd (by cases r <;> rfl) changed
  | halt => exact absurd (s.advance_reg r 1) changed
  | fault kind cause => exact absurd (s.raise_reg r kind) changed

/-- Settles O41: a stopped core changes no register, and a running core one by its own LD. -/
theorem registersChangeOnlyByTheirLoads : Obligations.RegistersChangeOnlyByTheirLoads := by
  intro s t r h changed
  rcases step_inversion h with ⟨-, rfl⟩ | ⟨hr, hs⟩
  · exact absurd rfl changed
  · exact ⟨hr, hs.reg_changed changed⟩

/-! ### Memory (R54, R70) -/

/-- A byte that a step of a running core changes was stored by `LD (HL), n`, or lies in the two bytes of a push. -/
theorem RunningStep.mem_changed {s t : State} {x : Word} (h : RunningStep s t) (changed : t.memRead x ≠ s.memRead x) :
    (s.memRead s.pc = 0x36#8 ∧ x = s.hlTarget ∧ t.memRead x = s.memRead (s.pcPlus 1)) ∨
      (PushesNow (s.memRead s.pc) s.flags ∧ (x = s.sp - 1#16 ∨ x = s.sp - 2#16)) := by
  cases h with
  | store op =>
    by_cases hx : x = s.hlTarget
    · subst hx
      exact .inl ⟨op, rfl, by rw [State.advance_memRead, State.memRead_memWrite_same]⟩
    · exact absurd (s.memRead_memWrite_other _ hx) changed
  | push ret target p op pushed =>
    obtain ⟨-, -, -, -, -, -, -, -, hmem⟩ := push16With_some pushed
    rw [State.setPc_memRead, hmem] at changed
    refine .inr ⟨op, ?_⟩
    by_contra outside
    obtain ⟨h1, h2⟩ := not_or.mp outside
    rw [if_neg h2, if_neg h1] at changed
    exact changed rfl
  | load r op => exact absurd (s.setReg_memRead r _ x) changed
  | pop v p popped =>
    obtain ⟨-, rfl, -⟩ := pop16With_some popped
    exact absurd rfl changed
  | jump target | halt | fault kind cause => exact absurd rfl changed

/-- Settles O42: a stopped core changes no byte, and a running core one by a store or a push. -/
theorem memoryChangesOnlyByStoresAndPushes : Obligations.MemoryChangesOnlyByStoresAndPushes := by
  intro s t x h changed
  rcases step_inversion h with ⟨-, rfl⟩ | ⟨hr, hs⟩
  · exact absurd rfl changed
  · exact ⟨hr, hs.mem_changed changed⟩

end Sys2Proof.Machine
end

section
/-! The host interface (70_reset_and_hazards.md R270 to R284): every operation keeps the invariant, and the budgets of two Runs add up. -/

namespace Sys2Proof.Machine

/-! ### The invariant (R36) -/

theorem stepState_inv {s : State} (inv : s.Inv) : (stepState s).Inv :=
  stepKeepsTheInvariant s _ inv (step_eq_stepState s)

/-- Run keeps the invariant: it takes steps (R283). -/
theorem run_inv {s : State} (inv : s.Inv) (budget : Nat) : (run budget s).2.Inv := by
  obtain ⟨k, -, hrun, -⟩ := run_eq_iterate budget s
  rw [hrun]
  exact Function.Iterate.rec State.Inv inv (fun _ => stepState_inv) k

/-- Load keeps the invariant, whether it refuses or not (R272). -/
theorem hostStep_load_inv {s : State} (inv : s.Inv) (bytes : List Byte) (base : Nat) :
    (hostStep (.load bytes base) s).2.Inv := by
  by_cases h : base + bytes.length > Config.cartSize
  · rw [hostStep_load_refused h]
    exact inv
  · rw [hostStep_load_ok h]
    refine inv.of_sameControl (storeBytes_wf _ _ _ inv.mem) ?_ (storeBytes_sameData _ _ s).2.2
    rw [storeBytes_sp]
    exact inv.sp

/-- SetSP keeps the invariant: it refuses every SP that is not legal (R281). -/
theorem hostStep_setSp_inv {s : State} (inv : s.Inv) (v : Nat) : (hostStep (.setSp v) s).2.Inv := by
  by_cases h : SpInRange v
  · have hi : v ≤ 0xE000 := h.2
    have value : (BitVec.ofNat 16 v).toNat = v := by
      rw [BitVec.toNat_ofNat, Nat.mod_eq_of_lt (by omega)]
    rw [hostStep_setSp_accepted h]
    exact inv.of_sameControl inv.mem (value.symm ▸ h) ⟨rfl, rfl⟩
  · rw [hostStep_setSp_refused h]
    exact inv

/-- Every operation of the host keeps the invariant. -/
theorem hostStep_inv (op : HostOp) {s : State} (inv : s.Inv) : (hostStep op s).2.Inv := by
  cases op with
  | reset => exact resetMeetsTheInvariant.1
  | load bytes base => exact hostStep_load_inv inv bytes base
  | step => exact stepState_inv inv
  | run budget => exact run_inv inv budget
  | setReg r v =>
    exact inv.of_sameControl ((s.setReg_mem r _).symm ▸ inv.mem) ((s.setReg_sp r _).symm ▸ inv.sp)
      ⟨s.setReg_runState r _, s.setReg_fault r _⟩
  | setSp v => exact hostStep_setSp_inv inv v
  | setHl v | setPc v | setFlag name v => exact inv.of_sameControl inv.mem inv.sp ⟨rfl, rfl⟩
  | readReg r | readHl | readPc | readSp | readFlag name | readMem a | readRunState | readFault => exact inv

/-- Settles O37: each operation keeps the invariant, and so does a sequence, by induction on it. -/
theorem hostOperationsKeepTheInvariant : Obligations.HostOperationsKeepTheInvariant := by
  refine ⟨fun op s inv => hostStep_inv op inv, fun ops => ?_⟩
  induction ops with
  | nil => exact fun _ inv => inv
  | cons op rest ih => exact fun s inv => ih _ (hostStep_inv op inv)

/-! ### Runs and their budgets (R283) -/

/-- A state of which Run answers anything but BudgetExhausted is a stopped core (R283). -/
theorem stopped_of_runResult {s : State} (h : runResult s ≠ .budgetExhausted) : s.runState ≠ .running :=
  fun hr => h (by simp only [runResult, hr])

/-- Settles O50: by induction on the first budget; a running core takes the same step in both Runs, and a stopped one none. -/
theorem runsComposeOverBudgets : Obligations.RunsComposeOverBudgets := by
  intro m n s
  induction m generalizing s with
  | zero =>
    rw [Nat.zero_add, run_zero]
    exact ⟨rfl, fun h => run_stopped (stopped_of_runResult h) n⟩
  | succ m ih =>
    by_cases hr : s.runState = .running
    · rw [Nat.succ_add, run_succ_running hr, run_succ_running hr]
      exact ih (stepState s)
    · simp only [run_stopped hr]
      exact ⟨trivial, fun _ => trivial⟩

end Sys2Proof.Machine
end

section
/-! Noninterference (10_state.md R22, R29): no instruction reads A, B, C, D, E or the flags N and H, so states that agree on everything else step to states that agree on everything else. -/

namespace Sys2Proof.Machine

/-- Everything that an instruction reads is the same: all of the state but A, B, C, D, E, N and H. -/
structure SameRead (s t : State) : Prop where
  pc : t.pc = s.pc
  sp : t.sp = s.sp
  h : t.h = s.h
  l : t.l = s.l
  z : t.flags.z = s.flags.z
  c : t.flags.c = s.flags.c
  mem : t.mem = s.mem
  runState : t.runState = s.runState
  fault : t.fault = s.fault

/-- Both outcomes are next states, and everything that an instruction reads is the same in them. -/
def NextSameRead (o p : Host.Outcome State Fault Refusal) : Prop :=
  ∃ t u, o = .next t ∧ p = .next u ∧ SameRead t u

theorem SameRead.next {t u : State} (v : SameRead t u) : NextSameRead (.next t) (.next u) := ⟨t, u, rfl, rfl, v⟩

section
variable {s t : State} (v : SameRead s t)
include v

/-! ### What is read -/

theorem SameRead.memRead (x : Word) : t.memRead x = s.memRead x := State.memRead_congr v.mem x

theorem SameRead.pcPlus (k : Nat) : t.pcPlus k = s.pcPlus k := congrArg (· + BitVec.ofNat 16 k) v.pc

theorem SameRead.hlTarget : t.hlTarget = s.hlTarget := congrArg₂ joinBytes v.h v.l

theorem SameRead.relTarget (e : Int) : t.relTarget e = s.relTarget e := congrArg (· + BitVec.ofInt 16 e) (v.pcPlus 2)

theorem SameRead.entry : t.entry = s.entry := by
  simp only [State.entry, v.memRead, v.pcPlus, v.pc]

/-- A condition tests Z or C alone (R106). -/
theorem condHolds_sameRead (cc : Cond) : condHolds cc t.flags = condHolds cc s.flags := by
  cases cc with
  | nz | z => simp only [condHolds, v.z]
  | nc | c => simp only [condHolds, v.c]

/-! ### What is written -/

theorem SameRead.setPc (w : Word) : SameRead (s.setPc w) (t.setPc w) := { v with pc := rfl }

theorem SameRead.advance (k : Nat) : SameRead (s.advance k) (t.advance k) := { v with pc := v.pcPlus k }

theorem SameRead.setReg (r : Reg8) (n : Byte) : SameRead (s.setReg r n) (t.setReg r n) := by
  cases r with
  | h => exact { v with h := rfl }
  | l => exact { v with l := rfl }
  | a | b | c | d | e => exact { v with }

theorem SameRead.setSp (w : Word) : SameRead { s with sp := w } { t with sp := w } := { v with sp := rfl }

theorem SameRead.memWrite (x : Word) (n : Byte) : SameRead (s.memWrite x n) (t.memWrite x n) :=
  { v with mem := congrArg (Memory.write · x.toNat n) v.mem }

theorem SameRead.pushByte (n : Byte) : SameRead (s.pushByte n) (t.pushByte n) :=
  { v with
    sp := congrArg (· - 1#16) v.sp
    mem := by rw [State.pushByte_mem, State.pushByte_mem, v.mem, v.sp] }

theorem SameRead.raise (kind : FaultKind) : SameRead (s.raise kind) (t.raise kind) :=
  { v with
    runState := rfl
    fault := by rw [State.raise_fault, State.raise_fault, v.memRead, v.pc] }

/-! ### What is done, operation by operation -/

theorem loadReg_sameRead (r : Reg8) (n : Byte) : NextSameRead (loadReg r n s) (loadReg r n t) :=
  ((v.setReg r n).advance 2).next

theorem execLdHL_sameRead (n : Byte) : NextSameRead (execLdHL n s) (execLdHL n t) := by
  rw [execLdHL, execLdHL, v.hlTarget]
  exact ((v.memWrite _ n).advance 2).next

theorem jump_sameRead {w w' : Word} (hw : w' = w) : NextSameRead (.next (s.setPc w)) (.next (t.setPc w')) := by
  subst hw
  exact (v.setPc w').next

theorem execHalt_sameRead : NextSameRead (execHalt s) (execHalt t) :=
  SameRead.next { v.advance 1 with runState := rfl }

/-- A branch goes the same way in both, on a condition that reads the same. -/
theorem branch_sameRead (cc : Cond) {o p o' p' : Host.Outcome State Fault Refusal} (taken : NextSameRead o p)
    (passed : NextSameRead o' p') :
    NextSameRead (if condHolds cc s.flags then o else o') (if condHolds cc t.flags then p else p') := by
  rw [condHolds_sameRead v]
  split
  · exact taken
  · exact passed

theorem callTo_sameRead {ret ret' : Word} (hret : ret' = ret) (target : Word) :
    NextSameRead (callTo ret target s) (callTo ret' target t) := by
  subst hret
  have test : t.pushOverflows = s.pushOverflows := by rw [State.pushOverflows, State.pushOverflows, v.sp]
  simp only [callTo, push16, push16With, test]
  cases s.pushOverflows with
  | true => exact (v.raise .stackOverflow).next
  | false => exact (((v.pushByte _).pushByte _).setPc target).next

theorem returnPop_sameRead : NextSameRead (returnPop s) (returnPop t) := by
  have test : t.popUnderflows = s.popUnderflows := by rw [State.popUnderflows, State.popUnderflows, v.sp]
  simp only [returnPop, pop16, pop16With, test, v.memRead, v.sp]
  cases s.popUnderflows with
  | true => exact (v.raise .stackUnderflow).next
  | false => exact ((v.setSp _).setPc _).next

/-! ### Every instruction, and the step -/

theorem exec_sameRead (i : Instr) : NextSameRead (exec i s) (exec i t) := by
  cases i with
  | ldB n => exact loadReg_sameRead v .b n
  | ldC n => exact loadReg_sameRead v .c n
  | ldD n => exact loadReg_sameRead v .d n
  | ldE n => exact loadReg_sameRead v .e n
  | ldH n => exact loadReg_sameRead v .h n
  | ldL n => exact loadReg_sameRead v .l n
  | ldA n => exact loadReg_sameRead v .a n
  | ldHL n => exact execLdHL_sameRead v n
  | jp nn => exact jump_sameRead v rfl
  | jpNZ nn | jpZ nn | jpNC nn | jpC nn => exact branch_sameRead v _ (jump_sameRead v rfl) (v.advance 3).next
  | jr e => exact jump_sameRead v (v.relTarget e)
  | jrNZ e | jrZ e | jrNC e | jrC e => exact branch_sameRead v _ (jump_sameRead v (v.relTarget e)) (v.advance 2).next
  | call nn => exact callTo_sameRead v (v.pcPlus 3) nn
  | callNZ nn | callZ nn | callNC nn | callC nn =>
    exact branch_sameRead v _ (callTo_sameRead v (v.pcPlus 3) nn) (v.advance 3).next
  | ret => exact returnPop_sameRead v
  | retNZ | retZ | retNC | retC => exact branch_sameRead v _ (returnPop_sameRead v) (v.advance 1).next
  | rst00 | rst08 | rst10 | rst18 | rst20 | rst28 | rst30 | rst38 => exact callTo_sameRead v (v.pcPlus 1) _
  | halt => exact execHalt_sameRead v

/-- Steps from states that agree on everything read lead to states that agree on everything read. -/
theorem step_sameRead : NextSameRead (step s) (step t) := by
  by_cases hr : s.runState = .running
  · rw [step_running hr, step_running (v.runState.trans hr), v.entry]
    cases s.entry with
    | none => exact (v.raise .unknownOpcode).next
    | some i => exact exec_sameRead v i
  · have stopped : t.runState ≠ .running := v.runState ▸ hr
    rw [step_stopped hr, step_stopped stopped]
    exact v.next

end

/-- Settles O43: the two states agree on everything that an instruction reads, and so do the states after the step. -/
theorem unreadRegistersAndFlagsDoNotInterfere : Obligations.UnreadRegistersAndFlagsDoNotInterfere := by
  intro s t a b c d e n h hs
  have v : SameRead s { s with a := a, b := b, c := c, d := d, e := e, flags := { s.flags with n := n, h := h } } :=
    ⟨rfl, rfl, rfl, rfl, rfl, rfl, rfl, rfl, rfl⟩
  obtain ⟨t', u, ht, hu, w⟩ := step_sameRead v
  cases ht.symm.trans hs
  exact ⟨u, hu, w.pc, w.sp, w.h, w.l, w.z, w.c, w.mem, w.runState, w.fault⟩

end Sys2Proof.Machine
end

section
/-! Sequences of pushes and pops (20_memory.md R77): the depth law and the capacity. -/

namespace Sys2Proof.Machine

/-! ### Sequences of pushes -/

section
variable {order : StackByteOrder} {v : Word} {rest : List Word} {s p : State}

/-- A sequence of pushes is its first push and then the others (R77). -/
theorem pushAll_cons_eq_some_iff :
    pushAll order (v :: rest) s = some p ↔ ∃ t, push16With order v s = some t ∧ pushAll order rest t = some p := by
  rw [pushAll]
  cases push16With order v s <;> simp

/-- A push that succeeds from any SP lowers the value of SP by 2 (R71, R72). -/
theorem push16With_sp_toNat (h : push16With order v s = some p) : p.sp.toNat + 2 = s.sp.toNat := by
  obtain ⟨room, hsp, -⟩ := push16With_some h
  rw [State.pushOverflows_iff] at room
  rw [hsp]
  bv_omega

/-- A push succeeds exactly where the stack test lets it (R72). -/
theorem exists_push16With_iff : (∃ t, push16With order v s = some t) ↔ 0xC002 ≤ s.sp.toNat := by
  rw [← Option.isSome_iff_exists, Option.isSome_iff_ne_none, ne_eq, push16With_none, State.pushOverflows_iff, not_lt]

/-- A push changes no byte at or above the SP before it (R71). -/
theorem push16With_memRead_above (h : push16With order v s = some p) {x : Word} (above : s.sp.toNat ≤ x.toNat) :
    p.memRead x = s.memRead x := by
  obtain ⟨room, -, -, -, -, -, -, -, hmem⟩ := push16With_some h
  rw [State.pushOverflows_iff] at room
  rw [hmem, if_neg (by bv_omega), if_neg (by bv_omega)]

end

section
variable {order : StackByteOrder} {values : List Word} {s p : State}

/-- Successful pushes lower the value of SP by two each (R77). -/
theorem pushAll_sp_toNat (h : pushAll order values s = some p) : p.sp.toNat + 2 * values.length = s.sp.toNat := by
  induction values generalizing s with
  | nil => cases h; rfl
  | cons v rest ih =>
    obtain ⟨t, first, others⟩ := pushAll_cons_eq_some_iff.mp h
    have := push16With_sp_toNat first
    have := ih others
    rw [List.length_cons]
    omega

/-- Successful pushes change no byte at or above the SP before them (R71, R77). -/
theorem pushAll_memRead_above (h : pushAll order values s = some p) {x : Word} (above : s.sp.toNat ≤ x.toNat) :
    p.memRead x = s.memRead x := by
  induction values generalizing s with
  | nil => cases h; rfl
  | cons v rest ih =>
    obtain ⟨t, first, others⟩ := pushAll_cons_eq_some_iff.mp h
    have := push16With_sp_toNat first
    rw [ih others (by omega), push16With_memRead_above first above]

end

/-! ### Sequences of pops -/

/-- A pop goes by SP and the two bytes there alone (R73, R74). -/
theorem pop16With_congr {order : StackByteOrder} {s q r : State} {v : Word} (h : pop16With order s = some (v, r))
    (sp : q.sp = s.sp) (low : q.memRead s.sp = s.memRead s.sp) (high : q.memRead (s.sp + 1#16) = s.memRead (s.sp + 1#16)) :
    pop16With order q = some (v, { q with sp := s.sp + 2#16 }) := by
  obtain ⟨filled, -, value⟩ := pop16With_some h
  cases popped : pop16With order q with
  | none =>
    have empty := pop16With_none.mp popped
    rw [State.popUnderflows_iff, sp, ← State.popUnderflows_iff] at empty
    exact absurd empty filled
  | some wp =>
    obtain ⟨w, p⟩ := wp
    obtain ⟨-, after, same⟩ := pop16With_some popped
    rw [sp, low, high] at same
    rw [after, sp, same, value]

/-- One more pop pops after the others (R77). -/
theorem popAll_succ {order : StackByteOrder} {n : Nat} {s q r : State} {values : List Word} {v : Word}
    (others : popAll order n s = some (values, q)) (last : pop16With order q = some (v, r)) :
    popAll order (n + 1) s = some (values ++ [v], r) := by
  induction n generalizing s values with
  | zero =>
    cases others
    simp [popAll, last]
  | succ n ih =>
    rw [popAll] at others
    cases first : pop16With order s with
    | none => simp [first] at others
    | some wt =>
      obtain ⟨w, t⟩ := wt
      cases middle : popAll order n t with
      | none => simp [first, middle] at others
      | some vq =>
        obtain ⟨vs, q'⟩ := vq
        obtain ⟨rfl, rfl⟩ : w :: vs = values ∧ q' = q := by simpa [first, middle] using others
        rw [popAll, first]
        simp [ih middle]

/-- After successful pushes from a legal SP, as many pops give the values back, the last pushed first, and write SP alone, which is then as before the pushes (R77). -/
theorem popAll_of_pushAll {order : StackByteOrder} {values : List Word} {s p : State} (hs : SpInRange s.sp.toNat)
    (h : pushAll order values s = some p) :
    popAll order values.length p = some (values.reverse, { p with sp := s.sp }) := by
  induction values generalizing s with
  | nil => cases h; rfl
  | cons v rest ih =>
    obtain ⟨t, first, others⟩ := pushAll_cons_eq_some_iff.mp h
    have drop := push16With_sp_toNat first
    have popped := ih (push16With_sp hs first) others
    have last : pop16With order { p with sp := t.sp } = some (v, { p with sp := t.sp + 2#16 }) :=
      pop16With_congr (pop16With_of_push16With hs first) rfl (pushAll_memRead_above others le_rfl)
        (pushAll_memRead_above others (by bv_omega))
    have back : t.sp + 2#16 = s.sp := by bv_omega
    rw [List.reverse_cons, ← back]
    exact popAll_succ popped last

/-- Settles O31: the drop of SP by its value, the pops by `popAll_of_pushAll`, which write SP alone. -/
theorem stackDepthAccounting : Obligations.StackDepthAccounting := by
  intro order values s p hs h
  have depth := pushAll_sp_toNat h
  exact ⟨by omega, _, popAll_of_pushAll hs h, rfl, fun _ => rfl⟩

/-! ### The capacity -/

/-- A sequence of pushes succeeds exactly when SP has room for two bytes each above the stack's end (R72, R77). -/
theorem exists_pushAll_iff {order : StackByteOrder} {values : List Word} {s : State} (hs : 0xC000 ≤ s.sp.toNat) :
    (∃ p, pushAll order values s = some p) ↔ 0xC000 + 2 * values.length ≤ s.sp.toNat := by
  induction values generalizing s with
  | nil => exact iff_of_true ⟨s, rfl⟩ hs
  | cons v rest ih =>
    rw [List.length_cons]
    constructor
    · rintro ⟨p, h⟩
      obtain ⟨t, first, others⟩ := pushAll_cons_eq_some_iff.mp h
      have room := exists_push16With_iff.mp ⟨t, first⟩
      have drop := push16With_sp_toNat first
      have := (ih (by omega)).mp ⟨p, others⟩
      omega
    · intro room
      obtain ⟨t, first⟩ := exists_push16With_iff (order := order) (v := v) (s := s) |>.mpr (by omega)
      have drop := push16With_sp_toNat first
      obtain ⟨p, others⟩ := (ih (s := t) (by omega)).mpr (by omega)
      exact ⟨p, pushAll_cons_eq_some_iff.mpr ⟨t, first, others⟩⟩

/-- Settles O32: from 0xE000 there is room for 0x2000 bytes, two for each value. -/
theorem stackHolds4096Values : Obligations.StackHolds4096Values := by
  intro order values s hs
  have value : s.sp.toNat = 0xE000 := by rw [hs]; rfl
  rw [exists_pushAll_iff (by omega), value]
  omega

end Sys2Proof.Machine
end

section
/-! Control flow over more than one instruction: the return from a call (41_control_flow.md R190), the fetch after a store (20_memory.md R66), and the relative jump written with its target (30_encoding.md R115). -/

namespace Sys2Proof.Machine

/-! ### The return from a call (R190) -/

/-- A running core runs the row of the table at PC (R109). -/
theorem step_of_entry {s : State} {i : Instr} (hr : s.runState = .running) (row : s.entry = some i) :
    step s = exec i s := by
  rw [step_running hr, row]

/-- The row of a one-byte instruction at PC goes by the opcode byte alone (R90, R107). -/
theorem State.entry_of_length_one {s : State} {op : Byte} {i : Instr} (hop : s.memRead s.pc = op)
    (row : tableEntry op 0x00#8 0x00#8 = some i) (len : i.length = 1) : s.entry = some i := by
  rw [State.entry, hop]
  exact tableEntry_length_one row len

/-- A pop is the same from any PC, which it keeps (R73). -/
theorem pop16_setPc {s p : State} {v : Word} (h : pop16 s = some (v, p)) (w : Word) :
    pop16 (s.setPc w) = some (v, p.setPc w) := by
  obtain ⟨-, rfl, -⟩ := pop16With_some h
  exact pop16With_congr h rfl rfl rfl

section
variable {s t u : State} (hs : SpInRange s.sp.toNat) (hr : s.runState = .running) (first : step s = .next t)
  (running : t.runState = .running) (isRet : t.memRead t.pc = 0xC9#8) (second : step t = .next u)
include hs hr first running isRet second

/-- A call that leaves the core running, and a RET at its target, lead to the return address with SP, registers, flags and control as before the call (R160, R170, R190). -/
theorem returned_from_call {i : Instr} {ret target : Word} (row : s.entry = some i)
    (call : exec i s = callTo ret target s) : u.pc = ret ∧ u.sp = s.sp ∧ SameData s u := by
  rw [step_of_entry hr row, call] at first
  rcases callTo_cases ret target s with ⟨p, pushed, hcall⟩ | ⟨-, hcall⟩ <;> cases hcall.symm.trans first
  · have popped := pop16_setPc (pop16With_of_push16With hs pushed) target
    have returns : returnPop (p.setPc target) = .next u :=
      (step_of_entry running (State.entry_of_length_one isRet rfl rfl)).symm.trans second
    rw [returnPop, popped] at returns
    cases returns
    obtain ⟨-, -, -, hflags, hrun, hfault, hreg, -, -⟩ := push16With_some pushed
    exact ⟨rfl, rfl, fun r => Eq.trans (by cases r <;> rfl) (hreg r), hflags, hrun, hfault⟩
  · cases running

/-- A taken conditional call returns as a call does (R161, R190). -/
theorem returned_from_callIf {i : Instr} {cc : Cond} {nn : Word} (row : s.entry = some i)
    (call : exec i s = callIf cc nn s) (taken : condHolds cc s.flags = true) :
    u.pc = s.pc + 3#16 ∧ u.sp = s.sp ∧ SameData s u :=
  returned_from_call hs hr first running isRet second row (call.trans (if_pos taken))

end

/-- The eight restart bytes are those of the eight field values (R99). -/
theorem exists_field_of_mem_rstOpcodes {op : Byte}
    (h : op ∈ [0xC7#8, 0xCF#8, 0xD7#8, 0xDF#8, 0xE7#8, 0xEF#8, 0xF7#8, 0xFF#8]) : ∃ ttt, op = rstOpcode ttt := by
  revert op
  decide

/-- Settles O44: the byte at PC is the call, or the restart of a field value, and both are calls. -/
theorem returnComesBackFromACall : Obligations.ReturnComesBackFromACall := by
  intro s t u hs hr first running isRet second
  refine ⟨fun op => ?_, fun op => ?_⟩
  · have row : s.entry = some (.call (imm16 (s.memRead (s.pcPlus 1)) (s.memRead (s.pcPlus 2)))) := by
      rw [State.entry, op]
      rfl
    exact returned_from_call hs hr first running isRet second row rfl
  · obtain ⟨ttt, hop⟩ := exists_field_of_mem_rstOpcodes op
    have row := State.entry_of_length_one hop (tableEntry_rstOpcode ttt) (rstOfField_length ttt)
    exact returned_from_call hs hr first running isRet second row (exec_rstOfField ttt s)

/-- Settles O53: the byte at PC is the conditional call of the condition that holds. -/
theorem returnComesBackFromATakenConditionalCall : Obligations.ReturnComesBackFromATakenConditionalCall := by
  intro s t u hs hr first running isRet second op
  have back {cc : Cond} (i : Word → Instr)
      (row : s.entry = some (i (imm16 (s.memRead (s.pcPlus 1)) (s.memRead (s.pcPlus 2)))))
      (call : ∀ nn, exec (i nn) s = callIf cc nn s) (taken : condHolds cc s.flags = true) :
      u.pc = s.pc + 3#16 ∧ u.sp = s.sp ∧ SameData s u :=
    returned_from_callIf hs hr first running isRet second row (call _) taken
  rcases op with ⟨hop, hf⟩ | ⟨hop, hf⟩ | ⟨hop, hf⟩ | ⟨hop, hf⟩
  · exact back .callNZ (by rw [State.entry, hop]; rfl) (fun _ => rfl) (by rw [condHolds, hf]; rfl)
  · exact back .callZ (by rw [State.entry, hop]; rfl) (fun _ => rfl) hf
  · exact back .callNC (by rw [State.entry, hop]; rfl) (fun _ => rfl) (by rw [condHolds, hf]; rfl)
  · exact back .callC (by rw [State.entry, hop]; rfl) (fun _ => rfl) hf

/-! ### The fetch after a store (R66, R291) -/

/-- Settles O45: the row of 36 with the operand fetched before the store; the next fetch begins at PC + 2, with the stored byte where HL is. -/
theorem storesAreSeenByTheNextFetch : Obligations.StoresAreSeenByTheNextFetch := by
  intro s t hr op h
  have row : s.entry = some (.ldHL (s.memRead (s.pcPlus 1))) := by
    rw [State.entry, op]
    rfl
  cases (step_of_entry hr row).symm.trans h
  have stored : ((s.memWrite s.hlTarget (s.memRead (s.pcPlus 1))).advance 2).memRead s.hlTarget =
      s.memRead (s.pcPlus 1) := by
    rw [State.advance_memRead, State.memRead_memWrite_same]
  refine ⟨rfl, stored, fun ahead => ?_⟩
  rw [fetchBytes_head?]
  exact congrArg some (ahead ▸ stored)

/-! ### The relative jump written with its target (R115) -/

/-- Settles O52: the displacement written for a target is the one in range whose jump leads there. -/
theorem writtenTargetOfARelativeJumpIsReached : Obligations.WrittenTargetOfARelativeJumpIsReached := by
  refine fun s => ⟨fun target e written => ?_, fun e wf => ?_⟩
  · obtain ⟨inRange, rfl⟩ := dispToTarget_eq_some_iff.mp written
    have wf : decide (DispInRange e) = true := decide_eq_true inRange
    refine ⟨?_, ?_, ?_, ?_, ?_⟩ <;> exact ⟨wf, jumpRule_of_branch rfl⟩
  · exact ⟨_, rfl, dispToTarget_eq_some_iff.mpr ⟨of_decide_eq_true wf, rfl⟩⟩

end Sys2Proof.Machine
end
